-- ==== Sys2Proof/Config.lean ====
section
/-! DEFINITION. The parameters of one instance of the block (spec 00_scope.md R5, R6, R47) and the free values. -/

namespace Sys2Proof

/-- The default the spec gives DIM_BITS (R6, D8). DIM_BITS itself is an argument of the machine, the field `dimBits` of its
sequencer; this value is only that of `State.reset` and of the bare bits of `decodeTableWord`. DESIGN CHOICE, log 3. -/
abbrev Config.dimBits : Nat := 16

/-- The two readings of the alpha shift (R64, D21). -/
inductive AlphaSense where
  /-- `shamt = 3 - (alpha >> 6)`: alpha 255 is opaque. -/
  | opaqueHigh
  /-- `shamt = alpha >> 6`: the uncorrected formula, carried for comparison only. -/
  | literal
  deriving DecidableEq, Repr

/-- ALPHA_SENSE of this hardware (R6, R60, 90_conflicts.md C1); log 10. -/
def Config.alphaSense : AlphaSense := .opaqueHigh

/-- Free value: DIV3's quotient for a sum above 765, which R54 gives no result for and no pixel word reaches; log 11. -/
opaque Config.div3Beyond : BitVec 10 → BitVec 8

end Sys2Proof
end

