-- ==== Sys2Proof/Word.lean ====
section
/-! DEFINITION. The plain data that crosses the block's ports: channels, pixel samples and words, dimensions, grids and buffers. -/

namespace Sys2Proof

/-- One channel: CH_BITS = 8, unsigned (R5). -/
abbrev Channel := BitVec 8

/-- A pixel word in format P, as `pix_data` carries it: PIX_BITS = 32 (R6, R43). -/
abbrev PixWord := BitVec 32

/-- A frame descriptor in format F written as one word, `{cfg_h, cfg_w}`, of an instance with DIM_BITS = `n` (R44). -/
abbrev DescWord (n : Nat) := BitVec (n + n)

/-- The width and height a descriptor stands for, whatever the instance: W ≥ 0, H ≥ 0, no upper bound (R12, R44). -/
structure Descriptor where
  cfgW : Nat
  cfgH : Nat
  deriving DecidableEq, Repr

/-- The descriptor can be given to an instance with DIM_BITS = `n`: both fields are below 2^n (R44, R97). -/
abbrev Descriptor.Fits (n : Nat) (d : Descriptor) : Prop := d.cfgW < 2 ^ n ∧ d.cfgH < 2 ^ n

/-- PixelSample: four unsigned channels (R12, R43). -/
structure PixelSample where
  red : Channel
  green : Channel
  blue : Channel
  alpha : Channel
  deriving DecidableEq, Repr

/-- PixelGrid: width, height and a row-major sequence of samples (R25). That there are exactly W×H of them is `WellFormed`. -/
structure PixelGrid where
  width : Nat
  height : Nat
  samples : List PixelSample
  deriving DecidableEq, Repr

/-- BitBuffer: width, height and a row-major sequence of bits, 1 = black dot (R25). -/
structure BitBuffer where
  width : Nat
  height : Nat
  bits : List (BitVec 1)
  deriving DecidableEq, Repr

end Sys2Proof
end

