-- ==== Sys2Proof/Syntax.lean ====
section
/-! DEFINITION. The operations of the block, one constructor per row of spec/opcode_table.json. -/

namespace Sys2Proof

/-- The fourteen operations (R48). Every format-P operation carries the whole pixel word: its row of the table has all 32
bits, and a datapath operation is a function of the current pixel beat (R14); log 5. -/
inductive Instr where
  /-- SUM3 (R53): reads red, green, blue. -/
  | sum3 (p : PixelSample)
  /-- DIV3 (R54): reads the sum of the beat. -/
  | div3 (p : PixelSample)
  /-- LUMA (R55): DIV3 after SUM3. -/
  | luma (p : PixelSample)
  /-- THRESH (R57): reads avg of the beat. -/
  | thresh (p : PixelSample)
  /-- INV (R59): reads whiteness of the beat. -/
  | inv (p : PixelSample)
  /-- ASHAMT (R60): reads alpha[7:6]. -/
  | ashamt (p : PixelSample)
  /-- SHMUX (R61): reads base_black and shamt of the beat. -/
  | shmux (p : PixelSample)
  /-- AINV (R62): reads whiteness of the beat and alpha. -/
  | ainv (p : PixelSample)
  /-- PIXEL (R65): reads the whole pixel word. -/
  | pixel (p : PixelSample)
  /-- LDPIX (R67): the acceptance of the beat at the cursor. -/
  | ldpix (p : PixelSample)
  /-- STBIT (R68): the delivery of the dot beat at the cursor. -/
  | stbit (dot : BitVec 1)
  /-- STEP (R70): one pixel beat converted and the cursor advanced. -/
  | step (p : PixelSample)
  /-- START (R69): a frame descriptor. -/
  | start (cfgW cfgH : Nat)
  /-- RASTERIZE (R71): START, then one STEP for each sample. -/
  | rasterize (grid : PixelGrid)
  deriving DecidableEq, Repr

end Sys2Proof
end

