-- ==== Sys2Proof/WellFormed.lean ====
section
/-! DEFINITION. Which instructions are well formed: all but a RASTERIZE whose grid breaks the length invariant (R25, R41). -/

namespace Sys2Proof

/-- "Invariant: sequence length is exactly W×H" (R25). -/
def PixelGrid.wellFormed (g : PixelGrid) : Bool :=
  g.samples.length == g.width * g.height

/-- Every pixel word and every descriptor is legal (R49); a grid must have exactly W×H samples (R25). -/
def Instr.wellFormed : Instr → Bool
  | .sum3 _ | .div3 _ | .luma _ | .thresh _ | .inv _ | .ashamt _ | .shmux _ | .ainv _ | .pixel _ => true
  | .ldpix _ | .stbit _ | .step _ | .start _ _ => true
  | .rasterize g => g.wellFormed

/-- The check as a proposition that can be decided. -/
abbrev Instr.WellFormed (i : Instr) : Prop := i.wellFormed = true

/-- What an instance with DIM_BITS = `n` can be given: every pixel word and every dot, and a descriptor or grid whose width and
height are below 2^n (R44, R97; log 22). -/
def Instr.Fits (n : Nat) : Instr → Prop
  | .sum3 _ | .div3 _ | .luma _ | .thresh _ | .inv _ | .ashamt _ | .shmux _ | .ainv _ | .pixel _ => True
  | .ldpix _ | .stbit _ | .step _ => True
  | .start w h => Descriptor.Fits n ⟨w, h⟩
  | .rasterize g => Descriptor.Fits n ⟨g.width, g.height⟩

end Sys2Proof
end

