-- ==== Sys2Proof/Decode.lean ====
section
/-! DEFINITION. Formats P, F and O bit by bit (R42 to R46), the decoder of beats and the encoder. -/

namespace Sys2Proof

/-- The three formats (R42). -/
inductive Format where
  | P | F | O
  deriving DecidableEq, Repr

/-- One beat, named by the port it crosses, which is what selects the operation (R42, R48). -/
inductive Beat where
  /-- A format-P word on `pix_data`. -/
  | pix (word : PixWord)
  /-- A format-F descriptor: the values on `cfg_w` and `cfg_h`, sampled together. -/
  | desc (d : Descriptor)
  /-- A format-O bit on `dot`. -/
  | dot (bit : BitVec 1)
  deriving DecidableEq, Repr

/-- The rows of the operation map (R48). No bit of a beat tells them apart (mask 0 in every row). -/
inductive Op where
  | sum3 | div3 | luma | thresh | inv | ashamt | shmux | ainv | pixel | ldpix | stbit | step | start | rasterize
  deriving DecidableEq, Repr

/-- Why `decode` rejects a list of beats. -/
inductive DecodeError where
  /-- Not as many bits as the format has (R42: each format has one fixed length). -/
  | wrongLength (f : Format) (nbits : Nat)
  /-- There is no beat to read. -/
  | noBeat (op : Op)
  /-- The beat is of another format than the operation's. -/
  | wrongFormat (op : Op) (f : Format)
  /-- Fewer pixel words than W×H follow the descriptor of a RASTERIZE (R25). -/
  | shortGrid (missing : Nat)
  deriving DecidableEq, Repr

/-- Format P, field split: red 31:24, green 23:16, blue 15:8, alpha 7:0 (R46). -/
def PixelSample.ofWord (w : PixWord) : PixelSample where
  red := w.extractLsb' 24 8
  green := w.extractLsb' 16 8
  blue := w.extractLsb' 8 8
  alpha := w.extractLsb' 0 8

/-- Format P, packing: `{red, green, blue, alpha}` (R43). -/
def PixelSample.word (p : PixelSample) : PixWord :=
  p.red ++ p.green ++ p.blue ++ p.alpha

/-- `cfg_w`, the lower DIM_BITS bits of a descriptor (R44). -/
def DescWord.cfgW {n : Nat} (d : DescWord n) : BitVec n := d.extractLsb' 0 n

/-- `cfg_h`, the upper DIM_BITS bits of a descriptor (R44). -/
def DescWord.cfgH {n : Nat} (d : DescWord n) : BitVec n := d.extractLsb' n n

/-- The descriptor `{cfg_h, cfg_w}` (R44). -/
def descWord {n : Nat} (cfgW cfgH : BitVec n) : DescWord n := cfgH ++ cfgW

/-- The operation each port's beat is: a pixel word is a STEP, a descriptor a START (R42), a dot beat the delivery half of a
STEP, STBIT (R68). Total: there is no invalid beat (R49). -/
def decodeBeat : Beat → Instr
  | .pix w => .step (PixelSample.ofWord w)
  | .desc d => .start d.cfgW d.cfgH
  | .dot b => .stbit b

/-- The format of a beat. -/
def Beat.format : Beat → Format
  | .pix _ => .P
  | .desc _ => .F
  | .dot _ => .O

/-- The one length of each format, in an instance with DIM_BITS = `n` (R42). -/
def Format.nbits (n : Nat) : Format → Nat
  | .P => 32
  | .F => n + n
  | .O => 1

/-- The beat whose bits are those of `w` (R43 to R45). -/
def Beat.ofWord (n : Nat) (f : Format) (w : Nat) : Beat :=
  match f with
  | .P => .pix (BitVec.ofNat 32 w)
  | .F => .desc ⟨(DescWord.cfgW (BitVec.ofNat (n + n) w)).toNat, (DescWord.cfgH (BitVec.ofNat (n + n) w)).toNat⟩
  | .O => .dot (BitVec.ofNat 1 w)

/-- A beat from its bits in an instance with DIM_BITS = `n`, rejected by name when there are not as many as the format has
(R42). -/
def Beat.ofBits (n : Nat) (f : Format) (nbits w : Nat) : Except DecodeError Beat :=
  if nbits = f.nbits n then .ok (Beat.ofWord n f w) else .error (.wrongLength f nbits)

/-- The bits of a beat on the ports of an instance with DIM_BITS = `n` (R43 to R45). -/
def Beat.bits (n : Nat) : Beat → Nat
  | .pix w => w.toNat
  | .desc d => (descWord (BitVec.ofNat n d.cfgW) (BitVec.ofNat n d.cfgH)).toNat
  | .dot b => b.toNat

/-- The beat can be given to an instance with DIM_BITS = `n`. -/
def Beat.Fits (n : Nat) : Beat → Prop
  | .desc d => d.Fits n
  | .pix _ | .dot _ => True

/-- Read one format-P beat for the operation `op`. -/
def decodePix (op : Op) (mk : PixelSample → Instr) : List Beat → Except DecodeError (Instr × List Beat)
  | .pix w :: rest => .ok (mk (PixelSample.ofWord w), rest)
  | b :: _ => .error (.wrongFormat op b.format)
  | [] => .error (.noBeat op)

/-- Read `n` format-P beats, row-major (R27). -/
def decodeSamples : Nat → List Beat → Except DecodeError (List PixelSample × List Beat)
  | 0, rest => .ok ([], rest)
  | n + 1, .pix w :: rest =>
    match decodeSamples n rest with
    | .ok (ps, rest') => .ok (PixelSample.ofWord w :: ps, rest')
    | .error e => .error e
  | _ + 1, b :: _ => .error (.wrongFormat .rasterize b.format)
  | n + 1, [] => .error (.shortGrid (n + 1))

/-- The operation `op` read from the front of a list of beats, with the beats left over. -/
def decode (op : Op) (beats : List Beat) : Except DecodeError (Instr × List Beat) :=
  match op with
  | .sum3 => decodePix .sum3 .sum3 beats
  | .div3 => decodePix .div3 .div3 beats
  | .luma => decodePix .luma .luma beats
  | .thresh => decodePix .thresh .thresh beats
  | .inv => decodePix .inv .inv beats
  | .ashamt => decodePix .ashamt .ashamt beats
  | .shmux => decodePix .shmux .shmux beats
  | .ainv => decodePix .ainv .ainv beats
  | .pixel => decodePix .pixel .pixel beats
  | .ldpix => decodePix .ldpix .ldpix beats
  | .step => decodePix .step .step beats
  | .stbit =>
    match beats with
    | .dot b :: rest => .ok (.stbit b, rest)
    | b :: _ => .error (.wrongFormat .stbit b.format)
    | [] => .error (.noBeat .stbit)
  | .start =>
    match beats with
    | .desc d :: rest => .ok (.start d.cfgW d.cfgH, rest)
    | b :: _ => .error (.wrongFormat .start b.format)
    | [] => .error (.noBeat .start)
  | .rasterize =>
    match beats with
    | .desc d :: rest =>
      match decodeSamples (d.cfgW * d.cfgH) rest with
      | .ok (ps, rest') => .ok (.rasterize ⟨d.cfgW, d.cfgH, ps⟩, rest')
      | .error e => .error e
    | b :: _ => .error (.wrongFormat .rasterize b.format)
    | [] => .error (.noBeat .rasterize)

/-- The row of the operation map an instruction belongs to (R48). -/
def Instr.op : Instr → Op
  | .sum3 _ => .sum3
  | .div3 _ => .div3
  | .luma _ => .luma
  | .thresh _ => .thresh
  | .inv _ => .inv
  | .ashamt _ => .ashamt
  | .shmux _ => .shmux
  | .ainv _ => .ainv
  | .pixel _ => .pixel
  | .ldpix _ => .ldpix
  | .stbit _ => .stbit
  | .step _ => .step
  | .start _ _ => .start
  | .rasterize _ => .rasterize

/-- The beats of an instruction: one beat of its row's format; a RASTERIZE is its descriptor and then its pixel words (R42, R52). -/
def encode : Instr → List Beat
  | .sum3 p | .div3 p | .luma p | .thresh p | .inv p | .ashamt p | .shmux p | .ainv p | .pixel p => [.pix p.word]
  | .ldpix p | .step p => [.pix p.word]
  | .stbit b => [.dot b]
  | .start w h => [.desc ⟨w, h⟩]
  | .rasterize g => .desc ⟨g.width, g.height⟩ :: g.samples.map fun p => .pix p.word

/-- What the decoder reads from bare bits, which carry no operation and no port. 32 bits are a format-P beat, which
`decodeBeat` reads as the STEP it triggers (it runs every format-P row: R42, R48); one bit, in a whole byte, is a format-O
beat. DESIGN CHOICE, log 1. -/
def decodeTableWord (nbits w : Nat) : Option Instr :=
  if nbits = 32 then (Beat.ofBits Config.dimBits .P 32 w).toOption.map decodeBeat
  else if nbits = 8 ∨ nbits = 1 then (Beat.ofBits Config.dimBits .O 1 w).toOption.map decodeBeat
  else none

end Sys2Proof
end

