-- ==== Sys2Proof/Machine/State.lean ====
section
/-! DEFINITION. The state of the block: sequencer, done pulse, the two index spaces, the trace, and the model's own records
of the datapath wires and of what the host offers (spec 10_state.md). Plain data. -/

namespace Sys2Proof.Machine

/-- The `phase` bit (R16). -/
inductive Phase where
  /-- 0: a descriptor can be accepted. -/
  | idle
  /-- 1: a frame is running. -/
  | run
  deriving DecidableEq, Repr

/-- The sequencer: `phase`, the frame registers `W` and `H` (R16) and the cursor `(x, y)` (R15), each as wide as DIM_BITS. -/
structure Sequencer where
  /-- DIM_BITS of this instance (R6): an argument of the machine, fixed when the instance is built (R22). No operation changes
  it; log 3. -/
  dimBits : Nat
  phase : Phase
  W : BitVec dimBits
  H : BitVec dimBits
  x : BitVec dimBits
  y : BitVec dimBits
  deriving DecidableEq, Repr

/-- The unique IDLE state of an instance with DIM_BITS = `n`, all zero (R17, R24). -/
def Sequencer.idle (n : Nat) : Sequencer := ⟨n, .idle, 0, 0, 0, 0⟩

/-- The events of the output trace (R21). -/
inductive Event where
  /-- A descriptor was accepted. -/
  | start (w h : Nat)
  /-- The bit of linear index `i` of the current frame was delivered. -/
  | dot (i : Nat) (bit : BitVec 1)
  /-- The current frame is complete. -/
  | done
  deriving DecidableEq, Repr

/-- An index space (R25): its elements by linear index, indexes strictly rising; an index not listed holds no value. -/
abbrev Memory (w : Nat) := List (Nat × BitVec w)

/-- The values the datapath wires of R14 last carried. Wires store nothing; this is the model's record of them and no
operation reads it. DESIGN CHOICE, log 4. -/
structure Wires where
  red : Option Channel
  green : Option Channel
  blue : Option Channel
  alpha : Option Channel
  sum : Option (BitVec 10)
  avg : Option (BitVec 8)
  whiteness : Option (BitVec 1)
  baseBlack : Option (BitVec 1)
  shamt : Option (BitVec 2)
  finalBlack : Option (BitVec 1)
  deriving DecidableEq, Repr

/-- What the host drives on the control inputs at one rising edge (R20). `startValid` and `pixValid` say whether the upstream
collaborator raises valid for the oldest descriptor or word it holds. -/
structure Edge where
  rst : Bool
  startValid : Bool
  pixValid : Bool
  dotReady : Bool
  deriving DecidableEq, Repr

/-- The host's side of the ports (R11, R20, R99): the offers still to be accepted, oldest first, so that an offer stays the
same until its transfer, and the edges to come. DESIGN CHOICE, log 8. -/
structure HostSide where
  descriptors : List Descriptor
  pixels : List PixWord
  edges : List Edge
  deriving DecidableEq, Repr

/-- The state of the machine (INVENTORY.md, State). -/
structure State where
  /-- `phase`, `W`, `H`, `x`, `y` (R15, R16) and DIM_BITS, the width of the last four (R6). -/
  seq : Sequencer
  /-- The `done` pulse register (R18); log 12. -/
  done : Bool
  /-- The wires' record (R14); log 4. -/
  wires : Wires
  /-- GRID: the sample presented at each index of the current frame (R25, R27); log 6. -/
  grid : Memory 32
  /-- BUF: the bit stored at each index of the current frame (R25, R28); log 7. -/
  buf : Memory 1
  /-- The output trace, oldest event first (R21). -/
  trace : List Event
  /-- The host's offers and coming inputs; log 8. -/
  host : HostSide
  deriving DecidableEq, Repr

/-- What stops the machine. No operation of the block raises either from a state that meets R17 (R78, R79). -/
inductive Fault where
  /-- LDPIX, STBIT or STEP in RUN with a cursor at index `i` ≥ W×H, which "does not exist" (R27, R28): only in states that
  break R17. Safe; log 9. -/
  | outsideFrame (i : Nat)
  /-- A modelled consumer reads BUF at an index no DOT has written (R24, D22, U8): `State.bufRead` alone. Safe; log 7. -/
  | unwrittenDot (i : Nat)
  deriving DecidableEq, Repr

/-- What has no behaviour in the model. -/
inductive Refusal where
  /-- START or RASTERIZE in IDLE with a width or height of 2^DIM_BITS or more, which "cannot be described to this hardware and
  is refused at the boundary" (R44, R97, U3). Safe; log 22. -/
  | notDescribable (cfgW cfgH : Nat)
  /-- An instruction without a meaning: raised by no arm of `exec`. Safe. -/
  | notModelled (mnemonic : String)
  deriving DecidableEq, Repr

/-- No wire carries a value (R24: "not state; no reset value"). -/
def Wires.none : Wires :=
  ⟨.none, .none, .none, .none, .none, .none, .none, .none, .none, .none⟩

/-- A host that offers nothing. -/
def HostSide.quiet : HostSide := ⟨[], [], []⟩

/-- An instance with DIM_BITS = `n` right after reset (R24, R94). -/
def State.resetAt (n : Nat) : State where
  seq := Sequencer.idle n
  done := false
  wires := Wires.none
  grid := []
  buf := []
  trace := []
  host := HostSide.quiet

/-- The machine right after reset (R24, R94), at the default DIM_BITS (R6); log 3. -/
def State.reset : State :=
  State.resetAt Config.dimBits

end Sys2Proof.Machine
end

