-- ==== Sys2Proof/Machine/Operands.lean ====
section
/-! DEFINITION. The datapath's arithmetic (spec 40_luminance.md, 42_alpha_inverter.md): unsigned, floor, no wrap (R7, R8, R56). -/

namespace Sys2Proof.Machine

/-- SUM3 (R53): the exact 10-bit sum of the three colour channels. -/
def sum3 (red green blue : Channel) : BitVec 10 :=
  red.setWidth 10 + green.setWidth 10 + blue.setWidth 10

/-- DIV3 (R54): floor(sum ÷ 3) for a sum of 0 to 765; above, the spec states no result (log 11). -/
def div3 (sum : BitVec 10) : BitVec 8 :=
  if sum.toNat ≤ 765 then (sum / 3#10).setWidth 8 else Config.div3Beyond sum

/-- LUMA (R55): `DIV3(SUM3(red, green, blue))`. -/
def luma (red green blue : Channel) : BitVec 8 :=
  div3 (sum3 red green blue)

/-- ASHAMT under either reading of the alpha shift (R60, R64). -/
def ashamtWith (sense : AlphaSense) (alpha : Channel) : BitVec 2 :=
  match sense with
  | .opaqueHigh => 3#2 - (alpha >>> 6).setWidth 2
  | .literal => (alpha >>> 6).setWidth 2

/-- ASHAMT of this hardware (R60, D21). -/
def ashamt (alpha : Channel) : BitVec 2 :=
  ashamtWith Config.alphaSense alpha

/-- SHMUX (R61): the one-bit value shifted right by `shamt`. -/
def shmux (baseBlack : BitVec 1) (shamt : BitVec 2) : BitVec 1 :=
  baseBlack >>> shamt.toNat

end Sys2Proof.Machine
end

