-- ==== Sys2Proof/Machine/Flags.lean ====
section
/-! DEFINITION. The one-bit values: whiteness, base_black, final_black (R57 to R65) and the ports' ready, valid, busy and done
equations (R18, R20). -/

namespace Sys2Proof.Machine

/-- THRESH (R57): `avg >> 7`, one bit. -/
def thresh (avg : BitVec 8) : BitVec 1 :=
  (avg >>> 7).setWidth 1

/-- INV (R59): `1 - whiteness`. -/
def inv (whiteness : BitVec 1) : BitVec 1 :=
  1#1 - whiteness

/-- AINV (R62) under either reading of the alpha shift. -/
def ainvWith (sense : AlphaSense) (whiteness : BitVec 1) (alpha : Channel) : BitVec 1 :=
  shmux (inv whiteness) (ashamtWith sense alpha)

/-- AINV (R62): `SHMUX(INV(whiteness), ASHAMT(alpha))`. -/
def ainv (whiteness : BitVec 1) (alpha : Channel) : BitVec 1 :=
  shmux (inv whiteness) (ashamt alpha)

/-- The whiteness of a beat: THRESH after LUMA. -/
def whitenessOf (p : PixelSample) : BitVec 1 :=
  thresh (luma p.red p.green p.blue)

/-- PIXEL (R65): steps 1 to 4 on one sample; 1 = black dot. -/
def pixelBit (p : PixelSample) : BitVec 1 :=
  ainv (whitenessOf p) p.alpha

/-- What PIXEL would give under the uncorrected formula (R64). -/
def pixelBitLiteral (p : PixelSample) : BitVec 1 :=
  ainvWith .literal (whitenessOf p) p.alpha

/-- What the host drives at the coming edge: nothing once its list has ended (log 8). -/
def State.edge (s : State) : Edge :=
  s.host.edges.headD ⟨false, false, false, false⟩

/-- Input `start_valid`: asserted for a descriptor the upstream collaborator holds. -/
def State.startValid (s : State) : Bool :=
  s.edge.startValid && !s.host.descriptors.isEmpty

/-- Input `pix_valid`: asserted for a word the upstream collaborator holds. -/
def State.pixValid (s : State) : Bool :=
  s.edge.pixValid && !s.host.pixels.isEmpty

/-- Input `dot_ready`. -/
def State.dotReady (s : State) : Bool :=
  s.edge.dotReady

/-- Output `busy = (phase == RUN)` (R18). -/
def State.busy (s : State) : Bool :=
  s.seq.phase == .run

/-- Output `start_ready = (phase == IDLE)` (R20). -/
def State.startReady (s : State) : Bool :=
  s.seq.phase == .idle

/-- Output `pix_ready = (phase == RUN) & dot_ready` (R20). -/
def State.pixReady (s : State) : Bool :=
  s.seq.phase == .run && s.dotReady

/-- Output `dot_valid = (phase == RUN) & pix_valid` (R20). -/
def State.dotValid (s : State) : Bool :=
  s.seq.phase == .run && s.pixValid

/-- Output `dot = PIXEL(pix_data)` while `dot_valid` is 1; no value otherwise (R20, R24, U7). -/
def State.dot (s : State) : Option (BitVec 1) :=
  if s.dotValid then s.host.pixels.head?.map fun w => pixelBit (PixelSample.ofWord w) else none

end Sys2Proof.Machine
end

