-- ==== Sys2Proof/Machine/Ops.lean ====
section
/-! DEFINITION. The named operations: the index spaces, the sequencer, the wires' record, the trace, reset, and the transfers
at a clock edge. The block takes no exception (R78, R84), so reset is the only entry shared by all of it. -/

namespace Sys2Proof.Machine

/-- The element at an index, none where nothing is listed. -/
def Memory.read {w : Nat} : Memory w → Nat → Option (BitVec w)
  | [], _ => none
  | (j, v) :: rest, i => if i = j then some v else Memory.read rest i

/-- Set the element at an index, keeping the indexes strictly rising. -/
def Memory.write {w : Nat} (i : Nat) (v : BitVec w) : Memory w → Memory w
  | [] => [(i, v)]
  | (j, u) :: rest =>
    if i < j then (i, v) :: (j, u) :: rest
    else if i = j then (i, v) :: rest
    else (j, u) :: Memory.write i v rest

/-- The canonical form: indexes strictly rising. Nothing an index could list equals "no value". -/
def Memory.wf {w : Nat} : Memory w → Bool
  | [] => true
  | [_] => true
  | (i, _) :: (j, v) :: rest => decide (i < j) && Memory.wf ((j, v) :: rest)

/-- `GridRead(i)` of the current frame (R27): none before the word at index `i` has been presented. -/
def State.gridRead (s : State) (i : Nat) : Option PixWord :=
  Memory.read s.grid i

/-- A consumer's read of BUF at index `i`; a position no DOT has written holds no value (R24, D22). The block itself never
reads BUF (R28). -/
def State.bufRead (s : State) (i : Nat) : Except Fault (BitVec 1) :=
  match Memory.read s.buf i with
  | some b => .ok b
  | none => .error (.unwrittenDot i)

/-- The linear index `y × W + x`, a value of 2 × DIM_BITS bits (R15, R26). -/
def Sequencer.index (q : Sequencer) : BitVec (q.dimBits + q.dimBits) :=
  q.y.setWidth (q.dimBits + q.dimBits) * q.W.setWidth (q.dimBits + q.dimBits) + q.x.setWidth (q.dimBits + q.dimBits)

/-- The number of elements W×H of the frame's spaces (R25). -/
def Sequencer.size (q : Sequencer) : Nat :=
  q.W.toNat * q.H.toNat

/-- The pixel at the cursor is the one at (W − 1, H − 1) (R70). -/
def Sequencer.isLast (q : Sequencer) : Bool :=
  !decide (q.x.toNat + 1 < q.W.toNat) && !decide (q.y.toNat + 1 < q.H.toNat)

/-- The sequencer after a STEP (R70): next column, row wrap, or the end of the frame. -/
def Sequencer.advance (q : Sequencer) : Sequencer :=
  if q.x.toNat + 1 < q.W.toNat then { q with x := q.x + 1 }
  else if q.y.toNat + 1 < q.H.toNat then { q with x := 0, y := q.y + 1 }
  else Sequencer.idle q.dimBits

/-- The sequencer of an instance with DIM_BITS = `n` at the first pixel of a W×H frame (R69). -/
def Sequencer.launch (n w h : Nat) : Sequencer :=
  ⟨n, .run, BitVec.ofNat n w, BitVec.ofNat n h, 0, 0⟩

/-- `emit E` (R9, R21). -/
def State.emit (s : State) (e : Event) : State :=
  { s with trace := s.trace ++ [e] }

/-- Replace the wires' record. -/
def State.withWires (s : State) (w : Wires) : State :=
  { s with wires := w }

/-- Replace the sequencer's registers. -/
def State.withSeq (s : State) (q : Sequencer) : State :=
  { s with seq := q }

/-- Load the `done` register, which every edge overwrites (R18). -/
def State.withDone (s : State) (d : Bool) : State :=
  { s with done := d }

/-- Replace the host's side. -/
def State.withHost (s : State) (h : HostSide) : State :=
  { s with host := h }

/-- New, empty GRID and BUF spaces: there is one of each per frame (R25). -/
def State.openSpaces (s : State) : State :=
  { s with grid := [], buf := [] }

/-- `GridRead(i)`: the sample presented at index `i` is what GRID holds there (R27); log 6. -/
def State.present (s : State) (i : Nat) (p : PixelSample) : State :=
  { s with grid := Memory.write i p.word s.grid }

/-- `BufWrite(i, bit)` (R28). -/
def State.bufWrite (s : State) (i : Nat) (bit : BitVec 1) : State :=
  { s with buf := Memory.write i bit s.buf }

/-- The channel wires carry the sample's fields (R14, R46). -/
def Wires.load (p : PixelSample) (w : Wires) : Wires :=
  { w with red := some p.red, green := some p.green, blue := some p.blue, alpha := some p.alpha }

/-- SUM3 produces `sum` (R53). -/
def Wires.sum3 (p : PixelSample) (w : Wires) : Wires :=
  { w with sum := some (Machine.sum3 p.red p.green p.blue) }

/-- DIV3 produces `avg` (R54). -/
def Wires.div3 (p : PixelSample) (w : Wires) : Wires :=
  { w with avg := some (Machine.div3 (Machine.sum3 p.red p.green p.blue)) }

/-- THRESH produces `whiteness` (R57). -/
def Wires.thresh (p : PixelSample) (w : Wires) : Wires :=
  { w with whiteness := some (whitenessOf p) }

/-- INV produces `base_black` (R59). -/
def Wires.inv (p : PixelSample) (w : Wires) : Wires :=
  { w with baseBlack := some (Machine.inv (whitenessOf p)) }

/-- ASHAMT produces `shamt` (R60). -/
def Wires.ashamt (p : PixelSample) (w : Wires) : Wires :=
  { w with shamt := some (Machine.ashamt p.alpha) }

/-- SHMUX produces `final_black` (R61). -/
def Wires.shmux (p : PixelSample) (w : Wires) : Wires :=
  { w with finalBlack := some (Machine.shmux (Machine.inv (whitenessOf p)) (Machine.ashamt p.alpha)) }

/-- LUMA: DIV3 after SUM3 (R52, R55). -/
def Wires.luma (p : PixelSample) (w : Wires) : Wires :=
  Wires.div3 p (Wires.sum3 p w)

/-- AINV: SHMUX of INV and ASHAMT (R52, R62). -/
def Wires.ainv (p : PixelSample) (w : Wires) : Wires :=
  Wires.shmux p (Wires.ashamt p (Wires.inv p w))

/-- PIXEL: the channels, then LUMA, THRESH and AINV (R52, R65). -/
def Wires.pixel (p : PixelSample) (w : Wires) : Wires :=
  Wires.ainv p (Wires.thresh p (Wires.luma p (Wires.load p w)))

/-- LDPIX at index `i` (R67): the sample is read from GRID and its channels appear on the wires. -/
def State.loadPixel (s : State) (i : Nat) (p : PixelSample) : State :=
  (s.present i p).withWires (s.wires.load p)

/-- STBIT at index `i` (R68): the bit is stored and `DOT(i, bit)` emitted. -/
def State.storeBit (s : State) (i : Nat) (bit : BitVec 1) : State :=
  (s.bufWrite i bit).emit (.dot i bit)

/-- The end of a STEP (R70): the cursor advances; after the last pixel the frame ends, `DONE` is emitted and `done` pulses. -/
def State.advance (s : State) : State :=
  if s.seq.isLast then ((s.withSeq s.seq.advance).withDone true).emit .done
  else (s.withSeq s.seq.advance).withDone false

/-- An edge at which no transfer happens changes nothing but the `done` register (R18, R70). -/
def State.noTransfer (s : State) : State :=
  s.withDone false

/-- The access shared by LDPIX, STBIT and STEP: in RUN, at the cursor's index, which lies inside the frame; in IDLE it is not
enabled and the state is `waiting` (R67, R70). -/
def State.atCursor (s waiting : State) (access : Nat → State) : Host.Outcome State Fault Refusal :=
  match s.seq.phase with
  | .idle => .next waiting
  | .run =>
    if s.seq.index.toNat < s.seq.size then .next (access s.seq.index.toNat)
    else .fault (.outsideFrame s.seq.index.toNat)

/-- A descriptor accepted in IDLE (R69): an empty frame is done at once and the registers stay; otherwise the frame runs. -/
def State.startFrame (s : State) (w h : Nat) : State :=
  if w = 0 ∨ h = 0 then ((s.openSpaces.emit (.start w h)).withDone true).emit .done
  else ((s.openSpaces.emit (.start w h)).withSeq (Sequencer.launch s.seq.dimBits w h)).withDone false

/-- Reset (R94): everything of the block and the trace to the reset state; what the host offers is the host's (log 20). -/
def State.applyReset (s : State) : State :=
  (State.resetAt s.seq.dimBits).withHost s.host

/-- The coming edge is used up. -/
def State.tick (s : State) : State :=
  s.withHost { s.host with edges := s.host.edges.tail }

/-- The transfer of the coming edge, if any (R20): a descriptor when `start_valid & start_ready`, a pixel word (and its dot)
when `pix_valid & pix_ready`. -/
def State.transfer (s : State) : Option Beat :=
  if s.startValid && s.startReady then s.host.descriptors.head?.map .desc
  else if s.pixValid && s.pixReady then s.host.pixels.head?.map .pix
  else none

/-- The host's offer has been taken (R99: each word exactly once). A dot beat is the block's own. -/
def State.accept (s : State) : Beat → State
  | .pix _ => s.withHost { s.host with pixels := s.host.pixels.tail }
  | .desc _ => s.withHost { s.host with descriptors := s.host.descriptors.tail }
  | .dot _ => s

/-- Words that found the block IDLE stay offered (R41). -/
def State.returnWords (s : State) (ps : List PixelSample) : State :=
  s.withHost { s.host with pixels := ps.map PixelSample.word ++ s.host.pixels }

/-- The word the host places for `withFetchWord`: a pixel word as it is, and for a dot beat a pixel whose dot is that bit. -/
def State.fetchPixel (nbits w : Nat) : PixWord :=
  if nbits = 32 then BitVec.ofNat _ w else if w % 2 = 1 then 0x000000FF#32 else 0x00000000#32

/-- One operation after another, stopping where one stops. -/
def andThen (o : Host.Outcome State Fault Refusal) (f : State → Host.Outcome State Fault Refusal) :
    Host.Outcome State Fault Refusal :=
  match o with
  | .next s => f s
  | .fault r => .fault r
  | .refused r => .refused r

end Sys2Proof.Machine
end

