-- ==== Sys2Proof/Machine/AlphaInverter.lean ====
section
/-! DEFINITION. INV, ASHAMT, SHMUX, AINV (spec 42_alpha_inverter.md). -/

namespace Sys2Proof.Machine

/-- INV (R59). -/
def execInv (p : PixelSample) (s : State) : Host.Outcome State Fault Refusal :=
  .next (s.withWires (s.wires.inv p))

/-- ASHAMT (R60). -/
def execAshamt (p : PixelSample) (s : State) : Host.Outcome State Fault Refusal :=
  .next (s.withWires (s.wires.ashamt p))

/-- SHMUX (R61). -/
def execShmux (p : PixelSample) (s : State) : Host.Outcome State Fault Refusal :=
  .next (s.withWires (s.wires.shmux p))

/-- AINV (R62). -/
def execAinv (p : PixelSample) (s : State) : Host.Outcome State Fault Refusal :=
  .next (s.withWires (s.wires.ainv p))

end Sys2Proof.Machine
end

