-- ==== Sys2Proof/Machine/Frame.lean ====
section
/-! DEFINITION. STEP, START, RASTERIZE (spec 43_pixel_and_frame.md). -/

namespace Sys2Proof.Machine

/-- The writes of one STEP at index `i`, together (R70): LDPIX, PIXEL, STBIT, the advance. -/
def State.convert (s : State) (i : Nat) (p : PixelSample) : State :=
  (((s.loadPixel i p).withWires (s.wires.pixel p)).storeBit i (pixelBit p)).advance

/-- STEP (R70): enabled in RUN; in IDLE the beat is not taken. -/
def execStep (p : PixelSample) (s : State) : Host.Outcome State Fault Refusal :=
  s.atCursor s.noTransfer fun i => s.convert i p

/-- START (R69): enabled in IDLE; in RUN the descriptor waits (R101). A descriptor the ports of this instance cannot carry is
refused (R44; log 22). -/
def execStart (cfgW cfgH : Nat) (s : State) : Host.Outcome State Fault Refusal :=
  match s.seq.phase with
  | .idle =>
    if Descriptor.Fits s.seq.dimBits ⟨cfgW, cfgH⟩ then .next (s.startFrame cfgW cfgH)
    else .refused (.notDescribable cfgW cfgH)
  | .run => .next s.noTransfer

/-- STEPs over a list of samples while the frame runs; a word left when it has ended stays offered (R41). -/
def runSamples : List PixelSample → State → Host.Outcome State Fault Refusal
  | [], s => .next s
  | p :: ps, s =>
    match s.seq.phase with
    | .idle => .next (s.returnWords (p :: ps))
    | .run => andThen (execStep p s) (runSamples ps)

/-- RASTERIZE (R71): START, then the STEPs of the grid's samples; in RUN its START waits (R101). -/
def execRasterize (grid : PixelGrid) (s : State) : Host.Outcome State Fault Refusal :=
  match s.seq.phase with
  | .idle => andThen (execStart grid.width grid.height s) (runSamples grid.samples)
  | .run => .next s.noTransfer

end Sys2Proof.Machine
end

