-- ==== Sys2Proof/Machine/Luminance.lean ====
section
/-! DEFINITION. SUM3, DIV3, LUMA (spec 40_luminance.md). Each produces its wire; no flag, no exception. -/

namespace Sys2Proof.Machine

/-- SUM3 (R53). -/
def execSum3 (p : PixelSample) (s : State) : Host.Outcome State Fault Refusal :=
  .next (s.withWires (s.wires.sum3 p))

/-- DIV3 (R54). -/
def execDiv3 (p : PixelSample) (s : State) : Host.Outcome State Fault Refusal :=
  .next (s.withWires (s.wires.div3 p))

/-- LUMA (R55). -/
def execLuma (p : PixelSample) (s : State) : Host.Outcome State Fault Refusal :=
  .next (s.withWires (s.wires.luma p))

end Sys2Proof.Machine
end

