-- ==== Sys2Proof/Machine/Pixel.lean ====
section
/-! DEFINITION. PIXEL, LDPIX, STBIT (spec 43_pixel_and_frame.md). -/

namespace Sys2Proof.Machine

/-- PIXEL (R65): "reads no state and writes none"; its wires carry the values. -/
def execPixel (p : PixelSample) (s : State) : Host.Outcome State Fault Refusal :=
  .next (s.withWires (s.wires.pixel p))

/-- LDPIX (R67): in RUN, the sample at the cursor; in IDLE not enabled. -/
def execLdpix (p : PixelSample) (s : State) : Host.Outcome State Fault Refusal :=
  s.atCursor s fun i => s.loadPixel i p

/-- STBIT (R68): in RUN, the bit at the cursor; in IDLE not enabled. -/
def execStbit (dot : BitVec 1) (s : State) : Host.Outcome State Fault Refusal :=
  s.atCursor s fun i => s.storeBit i dot

end Sys2Proof.Machine
end

