-- ==== Sys2Proof/Machine/Threshold.lean ====
section
/-! DEFINITION. THRESH (spec 41_threshold.md). -/

namespace Sys2Proof.Machine

/-- THRESH (R57). -/
def execThresh (p : PixelSample) (s : State) : Host.Outcome State Fault Refusal :=
  .next (s.withWires (s.wires.thresh p))

end Sys2Proof.Machine
end

