-- ==== Sys2Proof/Machine/Dispatch.lean ====
section
/-! DEFINITION. One arm per operation of spec/opcode_table.json. -/

namespace Sys2Proof.Machine

/-- The effect of one operation. -/
def exec (i : Instr) (s : State) : Host.Outcome State Fault Refusal :=
  match i with
  | .sum3 p => Sys2Proof.Machine.execSum3 p s
  | .div3 p => Sys2Proof.Machine.execDiv3 p s
  | .luma p => Sys2Proof.Machine.execLuma p s
  | .thresh p => Sys2Proof.Machine.execThresh p s
  | .inv p => Sys2Proof.Machine.execInv p s
  | .ashamt p => Sys2Proof.Machine.execAshamt p s
  | .shmux p => Sys2Proof.Machine.execShmux p s
  | .ainv p => Sys2Proof.Machine.execAinv p s
  | .pixel p => Sys2Proof.Machine.execPixel p s
  | .ldpix p => Sys2Proof.Machine.execLdpix p s
  | .stbit dot => Sys2Proof.Machine.execStbit dot s
  | .step p => Sys2Proof.Machine.execStep p s
  | .start cfgW cfgH => Sys2Proof.Machine.execStart cfgW cfgH s
  | .rasterize grid => Sys2Proof.Machine.execRasterize grid s

end Sys2Proof.Machine
end

