-- ==== Sys2Proof/Machine/Step.lean ====
section
/-! DEFINITION. One step of the machine: one rising clock edge (spec 10_state.md R20, 60_exceptions.md R83). -/

namespace Sys2Proof.Machine

/-- One rising edge: `rst` wins over everything (R83, R93); else the transfer of the edge, if there is one, is decoded by its
port and executed; else nothing but `done` changes (R70). -/
def step (s : State) : Host.Outcome State Fault Refusal :=
  if s.edge.rst then .next s.tick.applyReset
  else
    match s.transfer with
    | some b => exec (decodeBeat b) (s.tick.accept b)
    | none => .next s.tick.noTransfer

/-- `s` with the beat offered at the next edge, the consumer ready, and the block in RUN, where a pixel beat is taken: in
IDLE a 1×1 frame stands for the one a START would have opened (log 2). -/
def State.withFetchWord (s : State) (nbits w : Nat) : State :=
  let s' := if s.seq.phase = .run then s else s.withSeq (Sequencer.launch s.seq.dimBits 1 1)
  s'.withHost { s'.host with
    pixels := State.fetchPixel nbits w :: s'.host.pixels
    edges := ⟨false, false, true, true⟩ :: s'.host.edges }

end Sys2Proof.Machine
end

