-- ==== Sys2Proof/Safety.lean ====
section
/-! DEFINITION. What claims are stated in: the invariants of R17, the order of the trace (R35), the BitBuffers read off it
(R21, R71), and when a run is final or stuck (R75, R81). -/

namespace Sys2Proof.Machine

/-- R17: IDLE is all zero; in RUN the frame is not empty and the cursor lies inside it. -/
abbrev Sequencer.Inv (q : Sequencer) : Prop :=
  (q.phase = .idle → q.W = 0 ∧ q.H = 0 ∧ q.x = 0 ∧ q.y = 0) ∧
  (q.phase = .run → 1 ≤ q.W.toNat ∧ 1 ≤ q.H.toNat ∧ q.x.toNat < q.W.toNat ∧ q.y.toNat < q.H.toNat)

/-- Where a trace stands: between frames, before the `DONE` that must follow at once, or in a frame of `size` elements that
waits for the dot of index `next`. -/
inductive Monitor where
  | idle
  | closing
  | frame (size next : Nat)
  deriving DecidableEq, Repr

/-- The only events that may come next (R35, R75): frames do not overlap, dots come in index order, none twice, none left
out, and `DONE` comes after the last one. -/
def Monitor.accept : Monitor → Event → Option Monitor
  | .idle, .start w h => some (if w = 0 ∨ h = 0 then .closing else .frame (w * h) 0)
  | .frame size next, .dot i _ =>
    if i = next then some (if next + 1 = size then .closing else .frame size (next + 1)) else none
  | .closing, .done => some .idle
  | _, _ => none

/-- A whole trace from `m`; none as soon as an event may not come. -/
def Monitor.run : Monitor → List Event → Option Monitor
  | m, [] => some m
  | m, e :: es =>
    match m.accept e with
    | some m' => Monitor.run m' es
    | none => none

/-- Where the sequencer's registers say the trace stands. -/
def Sequencer.monitor (q : Sequencer) : Monitor :=
  match q.phase with
  | .idle => .idle
  | .run => .frame q.size q.index.toNat

/-- The dots of the last frame of a trace, after those of `acc`. -/
def frameDots : Memory 1 → List Event → Memory 1
  | acc, [] => acc
  | _, .start _ _ :: es => frameDots [] es
  | acc, .dot i b :: es => frameDots (acc ++ [(i, b)]) es
  | acc, .done :: es => frameDots acc es

/-- The BitBuffers of a trace (R21): one for each frame that reaches its `DONE` (R75), `cur` being the one under way. -/
def buffersFrom : Option BitBuffer → List Event → List BitBuffer
  | _, [] => []
  | _, .start w h :: es => buffersFrom (some ⟨w, h, []⟩) es
  | some b, .dot _ bit :: es => buffersFrom (some { b with bits := b.bits ++ [bit] }) es
  | some b, .done :: es => b :: buffersFrom none es
  | none, _ :: es => buffersFrom none es

/-- The BitBuffers of a whole trace. -/
def bitBuffers (trace : List Event) : List BitBuffer :=
  buffersFrom none trace

/-- `rasterize` as a function (R71). -/
def rasterize (g : PixelGrid) : BitBuffer :=
  ⟨g.width, g.height, g.samples.map pixelBit⟩

/-- The dots of samples delivered from index `i` on. -/
def dotsFrom : Nat → List PixelSample → List Event
  | _, [] => []
  | i, p :: ps => .dot i (pixelBit p) :: dotsFrom (i + 1) ps

/-- The upstream collaborator keeps its duty of R97: every descriptor it holds can be given to this instance. -/
def State.describable (s : State) : Prop :=
  ∀ d ∈ s.host.descriptors, d.Fits s.seq.dimBits

/-- One wire over two executions of an operation, from the records `a` and `a'` to `b` and `b'`: the operation drives it, to one
value whatever the record held, or leaves it in each record as it was. -/
def drivenOrKept {α : Type} (a b a' b' : Option α) : Prop :=
  b' = b ∨ (b = a ∧ b' = a')

/-- Each of the ten wires is driven to the same value or kept. -/
def Wires.DrivenOrKept (a b a' b' : Wires) : Prop :=
  drivenOrKept a.red b.red a'.red b'.red ∧ drivenOrKept a.green b.green a'.green b'.green ∧
  drivenOrKept a.blue b.blue a'.blue b'.blue ∧ drivenOrKept a.alpha b.alpha a'.alpha b'.alpha ∧
  drivenOrKept a.sum b.sum a'.sum b'.sum ∧ drivenOrKept a.avg b.avg a'.avg b'.avg ∧
  drivenOrKept a.whiteness b.whiteness a'.whiteness b'.whiteness ∧
  drivenOrKept a.baseBlack b.baseBlack a'.baseBlack b'.baseBlack ∧
  drivenOrKept a.shamt b.shamt a'.shamt b'.shamt ∧ drivenOrKept a.finalBlack b.finalBlack a'.finalBlack b'.finalBlack

/-- What holds between any two edges: DIM_BITS ≥ 1 (R6) and the host's duty of R97; R17; `done` is 1 only in IDLE (R18); GRID has been read at the indexes below the cursor,
each once (R32); every bit of BUF is the conversion of the sample at its own index and of nothing else (R36); the trace obeys
R35 and stands where the sequencer does; BUF is what the trace says of the last frame (R21). -/
def State.Inv (s : State) : Prop :=
  1 ≤ s.seq.dimBits ∧ s.describable ∧
  s.seq.Inv ∧
  (s.done = true → s.seq.phase = .idle) ∧
  s.grid.map Prod.fst = List.range s.grid.length ∧
  (s.seq.phase = .run → s.grid.length = s.seq.index.toNat) ∧
  s.buf = s.grid.map (fun c => (c.1, pixelBit (PixelSample.ofWord c.2))) ∧
  Monitor.run .idle s.trace = some s.seq.monitor ∧
  s.buf = frameDots [] s.trace

/-- A run is final when the block is IDLE and the last event is `DONE`, or there is none (R75). -/
def State.final (s : State) : Bool :=
  decide (s.seq.phase = .idle) && (s.trace.getLast?.all (· == .done))

/-- No edge the host has listed asserts `rst`. -/
def State.noReset (s : State) : Prop :=
  ∀ e ∈ s.host.edges, e.rst = false

/-- The edges at which the host makes a joint transfer possible (R107). -/
def Edge.joint (e : Edge) : Bool :=
  e.pixValid && e.dotReady

/-- The pixels of the frame still to convert, the one at the cursor included. -/
def Sequencer.remaining (q : Sequencer) : Nat :=
  q.size - q.index.toNat

end Sys2Proof.Machine
end

