-- ==== Sys2Proof/Certificates/Slice0/Obligations.lean ====
section
/-! DEFINITION. The statements about the block, from the numbered rules of spec/. -/

open Sys2Proof Sys2Proof.Machine

/-! ### The datapath -/

/-- R53: SUM3 drives `sum` with the exact sum, and changes nothing else. -/
def Obligations.Sum3AddsExactly : Prop :=
  ∀ (p : PixelSample) (s : State), ∃ v : BitVec 10,
    exec (.sum3 p) s = .next (s.withWires { s.wires with sum := some v }) ∧
    v.toNat = p.red.toNat + p.green.toNat + p.blue.toNat ∧ v.toNat ≤ 765

/-- R54: DIV3 drives `avg` with the floor of a third of the beat's sum, and changes nothing else. -/
def Obligations.Div3FloorsTheThird : Prop :=
  ∀ (p : PixelSample) (s : State), ∃ v : BitVec 8,
    exec (.div3 p) s = .next (s.withWires { s.wires with avg := some v }) ∧
    3 * v.toNat ≤ p.red.toNat + p.green.toNat + p.blue.toNat ∧
    p.red.toNat + p.green.toNat + p.blue.toNat ≤ 3 * v.toNat + 2

/-- R55: LUMA drives `sum` and `avg`, the truncated unweighted mean of the three colour channels. -/
def Obligations.LumaIsTheUnweightedMean : Prop :=
  ∀ (p : PixelSample) (s : State), ∃ (u : BitVec 10) (v : BitVec 8),
    exec (.luma p) s = .next (s.withWires { s.wires with sum := some u, avg := some v }) ∧
    u.toNat = p.red.toNat + p.green.toNat + p.blue.toNat ∧
    v.toNat = (p.red.toNat + p.green.toNat + p.blue.toNat) / 3

/-- R57: THRESH drives `whiteness`, 1 exactly when avg ≥ 128, and changes nothing else. -/
def Obligations.ThreshIsWhiteFrom128 : Prop :=
  ∀ (p : PixelSample) (s : State), ∃ v : BitVec 1,
    exec (.thresh p) s = .next (s.withWires { s.wires with whiteness := some v }) ∧
    v.toNat = (luma p.red p.green p.blue).toNat / 128 ∧
    (v = 1#1 ↔ 128 ≤ (p.red.toNat + p.green.toNat + p.blue.toNat) / 3)

/-- R58: whiteness is `sum >= 384`; of the 766 sums 384 are dark and 382 white. The spec marks the
rule as its own inference from R57 and R54. -/
def Obligations.WhitenessOnTheSum : Prop :=
  (∀ (p : PixelSample) (s t : State), exec (.thresh p) s = .next t →
    (t.wires.whiteness = some 1#1 ↔ 384 ≤ p.red.toNat + p.green.toNat + p.blue.toNat) ∧
    (t.wires.whiteness = some 0#1 ↔ p.red.toNat + p.green.toNat + p.blue.toNat ≤ 383)) ∧
  (∀ n : Nat, n ≤ 765 → (thresh (div3 (BitVec.ofNat 10 n)) = 1#1 ↔ 384 ≤ n)) ∧
  ((List.range 766).filter fun n => decide (thresh (div3 (BitVec.ofNat 10 n)) = 0#1)).length = 384 ∧
  ((List.range 766).filter fun n => decide (thresh (div3 (BitVec.ofNat 10 n)) = 1#1)).length = 382

/-- R59: INV drives `base_black = 1 - whiteness`, which is 1 exactly when avg < 128, and changes nothing else. -/
def Obligations.InvWantsADotWhenDark : Prop :=
  ∀ (p : PixelSample) (s : State), ∃ v : BitVec 1,
    exec (.inv p) s = .next (s.withWires { s.wires with baseBlack := some v }) ∧
    v.toNat = 1 - (whitenessOf p).toNat ∧
    (v = 1#1 ↔ (p.red.toNat + p.green.toNat + p.blue.toNat) / 3 < 128)

/-- R60: ASHAMT drives `shamt`, three less the top two bits of alpha, in its three forms, and changes nothing else. -/
def Obligations.AshamtComplementsTheTopBits : Prop :=
  ∀ (p : PixelSample) (s : State), ∃ v : BitVec 2,
    exec (.ashamt p) s = .next (s.withWires { s.wires with shamt := some v }) ∧
    v.toNat = 3 - p.alpha.toNat / 64 ∧ v.toNat = (255 - p.alpha.toNat) / 64 ∧ v = ~~~ (p.alpha.extractLsb' 6 2)

/-- R61: SHMUX drives `final_black`, base_black for shift amount 0 and 0 for any other, and changes nothing else. -/
def Obligations.ShmuxKeepsOrClears : Prop :=
  ∀ (p : PixelSample) (s : State), ∃ v : BitVec 1,
    exec (.shmux p) s = .next (s.withWires { s.wires with finalBlack := some v }) ∧
    v.toNat = (inv (whitenessOf p)).toNat >>> (ashamt p.alpha).toNat ∧
    v = (if ashamt p.alpha = 0#2 then inv (whitenessOf p) else 0#1) ∧
    v.toNat ≤ (inv (whitenessOf p)).toNat

/-- R62: AINV drives `base_black`, `shamt` and `final_black`; a dot exactly when dark and alpha in 192 to 255. -/
def Obligations.AinvPrintsDarkAndOpaque : Prop :=
  ∀ (p : PixelSample) (s : State), ∃ (b : BitVec 1) (k : BitVec 2) (f : BitVec 1),
    exec (.ainv p) s = .next (s.withWires { s.wires with baseBlack := some b, shamt := some k, finalBlack := some f }) ∧
    b.toNat = 1 - (whitenessOf p).toNat ∧ k.toNat = 3 - p.alpha.toNat / 64 ∧ f.toNat = b.toNat / 2 ^ k.toNat ∧
    (f = 1#1 ↔ whitenessOf p = 0#1 ∧ 192 ≤ p.alpha.toNat)

/-- R63: the five properties of AINV, the first three on the beat's luminance, with their extension to the alpha bands, which
the spec infers from R62. -/
def Obligations.AinvProperties : Prop :=
  (∀ p : PixelSample, 192 ≤ p.alpha.toNat → 128 ≤ (luma p.red p.green p.blue).toNat →
    ainv (whitenessOf p) p.alpha = 0#1) ∧
  (∀ p : PixelSample, 192 ≤ p.alpha.toNat → (luma p.red p.green p.blue).toNat < 128 →
    ainv (whitenessOf p) p.alpha = 1#1) ∧
  (∀ p : PixelSample, p.alpha.toNat ≤ 191 → ainv (whitenessOf p) p.alpha = 0#1) ∧
  (∀ (w : BitVec 1) (a : Channel), (ainv w a).toNat ≤ (inv w).toNat) ∧
  (∀ (w : BitVec 1) (a a' : Channel), a.toNat / 64 = a'.toNat / 64 → ainv w a = ainv w a')

/-- R64: the uncorrected formula prints dark pixels of alpha 0 to 63, and differs from this hardware exactly for dark pixels
in the two outer bands; AINV is the only function of (base_black, alpha[7:6]) that §8 and the middle bands allow. -/
def Obligations.LiteralReadingDiffersInTheOuterBands : Prop :=
  (∀ p : PixelSample, pixelBitLiteral p = 1#1 ↔ whitenessOf p = 0#1 ∧ p.alpha.toNat ≤ 63) ∧
  (∀ p : PixelSample, pixelBitLiteral p ≠ pixelBit p ↔
    whitenessOf p = 0#1 ∧ (p.alpha.toNat ≤ 63 ∨ 192 ≤ p.alpha.toNat)) ∧
  (∀ f : BitVec 1 → BitVec 2 → BitVec 1, (∀ b, f b 3#2 = b) → (∀ b, f b 0#2 = 0#1) →
    (∀ b t, t = 1#2 ∨ t = 2#2 → f b t = b >>> t.toNat) →
    ∀ (w : BitVec 1) (a : Channel), f (inv w) (a.extractLsb' 6 2) = ainv w a) ∧
  Config.alphaSense = .opaqueHigh

/-- R65: PIXEL drives every wire with its value, changes nothing else, and prints exactly when the sum is at most 383 and
alpha at least 192 (a closed form the spec infers from the rest). -/
def Obligations.PixelPrintsExactlyDarkAndOpaque : Prop :=
  ∀ (p : PixelSample) (s : State),
    ∃ (u : BitVec 10) (v : BitVec 8) (w b : BitVec 1) (k : BitVec 2) (f : BitVec 1),
      exec (.pixel p) s = .next (s.withWires
        ⟨some p.red, some p.green, some p.blue, some p.alpha, some u, some v, some w, some b, some k, some f⟩) ∧
      u.toNat = p.red.toNat + p.green.toNat + p.blue.toNat ∧ v.toNat = u.toNat / 3 ∧ w.toNat = v.toNat / 128 ∧
      b.toNat = 1 - w.toNat ∧ k.toNat = 3 - p.alpha.toNat / 64 ∧ f.toNat = b.toNat / 2 ^ k.toNat ∧
      (f = 1#1 ↔ p.red.toNat + p.green.toNat + p.blue.toNat ≤ 383 ∧ 192 ≤ p.alpha.toNat)

/-- R66: the three testable properties P1 to P3 of a pixel, on what PIXEL answers. -/
def Obligations.PixelTestableProperties : Prop :=
  ∀ (p : PixelSample) (s t : State), exec (.pixel p) s = .next t →
    (p.alpha = 255#8 → 128 ≤ (luma p.red p.green p.blue).toNat → t.wires.finalBlack = some 0#1) ∧
    (p.alpha = 255#8 → (luma p.red p.green p.blue).toNat < 128 → t.wires.finalBlack = some 1#1) ∧
    (p.alpha = 0#8 → t.wires.finalBlack = some 0#1)

/-- R52: the datapath composites and STEP are the compositions shown. -/
def Obligations.CompositesAreTheirExpansions : Prop :=
  ∀ (p : PixelSample) (s : State),
    exec (.luma p) s = andThen (exec (.sum3 p) s) (exec (.div3 p)) ∧
    exec (.ainv p) s = andThen (andThen (exec (.inv p) s) (exec (.ashamt p))) (exec (.shmux p)) ∧
    (∀ t, exec (.pixel p) s = .next t → t.wires.finalBlack = some (pixelBit p)) ∧
    (s.seq.phase = .run → exec (.step p) s =
      andThen (andThen (andThen (exec (.ldpix p) s) (exec (.pixel p))) (exec (.stbit (pixelBit p)))) fun t =>
        .next t.advance)

/-- The datapath operations leave everything but the wires' record as it was (R14, R18, R65). -/
def Obligations.DatapathFrame : Prop :=
  ∀ (p : PixelSample) (s t : State) (i : Instr),
    i ∈ [.sum3 p, .div3 p, .luma p, .thresh p, .inv p, .ashamt p, .shmux p, .ainv p, .pixel p] → exec i s = .next t →
    t.seq = s.seq ∧ t.done = s.done ∧ t.trace = s.trace ∧ t.host = s.host ∧
    (∀ a, t.gridRead a = s.gridRead a) ∧ (∀ a, t.bufRead a = s.bufRead a)

/-- No operation reads the wires' record (log 4): nothing is carried from one pixel to the next (R14, R36). With any other
record `w` in its place an operation leaves the same state outside the record, drives the same wires to the same values, and
keeps each of the other wires as its own record had it. -/
def Obligations.WiresRecordIsNeverRead : Prop :=
  ∀ (i : Instr) (s t' : State) (w : Wires), exec i (s.withWires w) = .next t' →
    ∃ t, exec i s = .next t ∧ t' = t.withWires t'.wires ∧ Wires.DrivenOrKept s.wires t.wires w t'.wires

/-! ### LDPIX and STBIT -/

/-- R67: inside a frame, where the index y × W + x is below W × H, LDPIX reads the sample at that index: the word is GRID's
element there, its channels are on the wires, and nothing else changes. That LDPIX, which the spec enables only inside STEP, is
executed alone is the model's choice, log 17. -/
def Obligations.LdpixReadsAtTheCursor : Prop :=
  ∀ (p : PixelSample) (s : State), s.seq.Inv → s.seq.phase = .run →
    ∃ t, exec (.ldpix p) s = .next t ∧
      t.gridRead (s.seq.y.toNat * s.seq.W.toNat + s.seq.x.toNat) = some p.word ∧
      s.seq.y.toNat * s.seq.W.toNat + s.seq.x.toNat < s.seq.W.toNat * s.seq.H.toNat ∧
      (∀ a, a ≠ s.seq.y.toNat * s.seq.W.toNat + s.seq.x.toNat → t.gridRead a = s.gridRead a) ∧
      t.wires = { s.wires with red := some p.red, green := some p.green, blue := some p.blue, alpha := some p.alpha } ∧
      (∀ a, t.bufRead a = s.bufRead a) ∧
      t.seq = s.seq ∧ t.done = s.done ∧ t.trace = s.trace ∧ t.host = s.host

/-- R68: inside a frame STBIT stores the bit at index y × W + x, emits DOT with that index and bit, and changes nothing else.
That STBIT is executed alone is the model's choice, log 17. -/
def Obligations.StbitStoresAtTheCursor : Prop :=
  ∀ (b : BitVec 1) (s : State), s.seq.Inv → s.seq.phase = .run →
    ∃ t, exec (.stbit b) s = .next t ∧
      t.bufRead (s.seq.y.toNat * s.seq.W.toNat + s.seq.x.toNat) = .ok b ∧
      t.trace = s.trace ++ [.dot (s.seq.y.toNat * s.seq.W.toNat + s.seq.x.toNat) b] ∧
      (∀ a, a ≠ s.seq.y.toNat * s.seq.W.toNat + s.seq.x.toNat → t.bufRead a = s.bufRead a) ∧
      (∀ a, t.gridRead a = s.gridRead a) ∧
      t.wires = s.wires ∧ t.seq = s.seq ∧ t.done = s.done ∧ t.host = s.host

/-- Outside a frame no access is enabled: LDPIX and STBIT change nothing and STEP nothing but the `done` register (R67, R70;
that an operation not enabled is a next state is the model's reading, log 13). -/
def Obligations.AccessesWaitInIdle : Prop :=
  ∀ (p : PixelSample) (b : BitVec 1) (s : State), s.seq.phase = .idle →
    exec (.ldpix p) s = .next s ∧ exec (.stbit b) s = .next s ∧ exec (.step p) s = .next (s.withDone false)

/-- A cursor outside its frame, which R17 excludes, faults by name: the model's choice, log 9 (R27, R28: no such index). -/
def Obligations.AccessOutsideTheFrameFaults : Prop :=
  ∀ (p : PixelSample) (b : BitVec 1) (s : State), s.seq.phase = .run → s.seq.size ≤ s.seq.index.toNat →
    exec (.ldpix p) s = .fault (.outsideFrame s.seq.index.toNat) ∧
    exec (.stbit b) s = .fault (.outsideFrame s.seq.index.toNat) ∧
    exec (.step p) s = .fault (.outsideFrame s.seq.index.toNat)

/-- A consumer reads a bit exactly where one has been stored; any other position holds no value and its read faults (R24,
R28, and the model's choice to fault, log 7). -/
def Obligations.ConsumerReadsOnlyStoredBits : Prop :=
  (∀ n i, (State.resetAt n).bufRead i = .error (.unwrittenDot i)) ∧
  (∀ (s : State) (i : Nat) (b : BitVec 1) (j : Nat), (s.storeBit i b).bufRead j = if j = i then .ok b else s.bufRead j) ∧
  (∀ s : State, s.Inv → s.seq.phase = .run → ∀ i,
    (i < s.seq.index.toNat → ∃ w, s.gridRead i = some w ∧ s.bufRead i = .ok (pixelBit (PixelSample.ofWord w))) ∧
    (s.seq.index.toNat ≤ i → s.bufRead i = .error (.unwrittenDot i)))

/-! ### START and STEP -/

/-- R69: `start_ready` is 1 exactly in IDLE, and in IDLE a descriptor is accepted, with any values of the DIM_BITS wide
`cfg_w` and `cfg_h`: an empty frame is done at once with the registers as they were, any other opens at (0, 0) in RUN. -/
def Obligations.StartAcceptsADescriptor : Prop :=
  (∀ s : State, s.startReady = true ↔ s.seq.phase = .idle) ∧
  (∀ (s : State) (w h : BitVec s.seq.dimBits), s.seq.phase = .idle →
    ∃ t, exec (.start w.toNat h.toNat) s = .next t ∧
      (if w = 0 ∨ h = 0 then t.seq = s.seq ∧ t.done = true ∧ t.trace = s.trace ++ [.start w.toNat h.toNat, .done]
       else t.seq = ⟨s.seq.dimBits, .run, w, h, 0, 0⟩ ∧ t.done = false ∧ t.trace = s.trace ++ [.start w.toNat h.toNat]) ∧
      t.wires = s.wires ∧ t.host = s.host)

/-- In RUN a START waits: it changes nothing but `done`. That an operation not enabled is such a next state is the model's
reading of R69 and R101, log 13. -/
def Obligations.StartWaitsInRun : Prop :=
  ∀ (w h : Nat) (s : State), s.seq.phase = .run → exec (.start w h) s = .next (s.withDone false)

/-- A width or height of 2^DIM_BITS or more is refused by name where it would be accepted: by START, by RASTERIZE and by the
edge that would take the host's descriptor. The spec says "refused at the boundary" (R44, R97, U3); where is log 22. -/
def Obligations.OversizeGridIsRefused : Prop :=
  (∀ (w h : Nat) (s : State), s.seq.phase = .idle → 2 ^ s.seq.dimBits ≤ w ∨ 2 ^ s.seq.dimBits ≤ h →
    exec (.start w h) s = .refused (.notDescribable w h)) ∧
  (∀ (g : PixelGrid) (s : State), s.seq.phase = .idle → 2 ^ s.seq.dimBits ≤ g.width ∨ 2 ^ s.seq.dimBits ≤ g.height →
    exec (.rasterize g) s = .refused (.notDescribable g.width g.height)) ∧
  (∀ (s : State) (d : Descriptor) (ds : List Descriptor), s.seq.phase = .idle → s.edge.rst = false →
    s.startValid = true → s.host.descriptors = d :: ds → ¬ d.Fits s.seq.dimBits →
    step s = .refused (.notDescribable d.cfgW d.cfgH))

/-- An accepted descriptor finds both spaces without an element: the model's choice, log 21, from "one per frame" (R25). -/
def Obligations.StartOpensNewSpaces : Prop :=
  ∀ (s : State) (w h : BitVec s.seq.dimBits), s.seq.phase = .idle →
    ∃ t, exec (.start w.toNat h.toNat) s = .next t ∧ (∀ a, t.gridRead a = none) ∧ (∀ a, t.bufRead a = .error (.unwrittenDot a))

/-- R70: a STEP in RUN stores the conversion of its word at the cursor, emits its DOT, and advances: next column, row wrap, or
the end of the frame with DONE and all registers cleared. The wires' record is PIXEL's; nothing else of GRID and BUF changes,
nor the host's side. On the ports: in RUN an edge takes the oldest word exactly when `pix_valid` and `dot_ready` are both 1,
and otherwise changes nothing but `done` and the host's list of edges. -/
def Obligations.StepConvertsAndAdvances : Prop :=
  (∀ (p : PixelSample) (s : State), s.seq.Inv → s.seq.phase = .run →
    ∃ t, exec (.step p) s = .next t ∧
      t.gridRead (s.seq.y.toNat * s.seq.W.toNat + s.seq.x.toNat) = some p.word ∧
      t.bufRead (s.seq.y.toNat * s.seq.W.toNat + s.seq.x.toNat) = .ok (pixelBit p) ∧
      (∀ a, a ≠ s.seq.y.toNat * s.seq.W.toNat + s.seq.x.toNat →
        t.gridRead a = s.gridRead a ∧ t.bufRead a = s.bufRead a) ∧
      (if s.seq.x.toNat + 1 < s.seq.W.toNat then
        t.seq = { s.seq with x := s.seq.x + 1 } ∧ t.done = false ∧
        t.trace = s.trace ++ [.dot (s.seq.y.toNat * s.seq.W.toNat + s.seq.x.toNat) (pixelBit p)]
       else if s.seq.y.toNat + 1 < s.seq.H.toNat then
        t.seq = { s.seq with x := 0, y := s.seq.y + 1 } ∧ t.done = false ∧
        t.trace = s.trace ++ [.dot (s.seq.y.toNat * s.seq.W.toNat + s.seq.x.toNat) (pixelBit p)]
       else
        t.seq = ⟨s.seq.dimBits, .idle, 0, 0, 0, 0⟩ ∧ t.done = true ∧
        t.trace = s.trace ++ [.dot (s.seq.y.toNat * s.seq.W.toNat + s.seq.x.toNat) (pixelBit p), .done]) ∧
      (∃ u, exec (.pixel p) s = .next u ∧ t.wires = u.wires) ∧ t.host = s.host) ∧
  (∀ (s : State) (w : PixWord) (ws : List PixWord), s.seq.phase = .run → s.edge.rst = false →
    s.pixValid = true → s.dotReady = true → s.host.pixels = w :: ws →
    step s = exec (.step (PixelSample.ofWord w))
      (s.withHost { s.host with pixels := ws, edges := s.host.edges.tail })) ∧
  (∀ s : State, s.seq.phase = .run → s.edge.rst = false → (s.pixValid && s.dotReady) = false →
    step s = .next ((s.withDone false).withHost { s.host with edges := s.host.edges.tail }))

/-- R101: a descriptor offered in RUN stays offered and emits nothing of its own; in IDLE the oldest offered one is taken. -/
def Obligations.DescriptorWaitsWhileBusy : Prop :=
  (∀ s t : State, s.seq.phase = .run → s.edge.rst = false → step s = .next t →
    t.host.descriptors = s.host.descriptors ∧ s.startReady = false ∧
    ∃ es, t.trace = s.trace ++ es ∧ ∀ w h, Event.start w h ∉ es) ∧
  (∀ (s : State) (d : Descriptor) (ds : List Descriptor), s.seq.phase = .idle → s.edge.rst = false →
    s.startValid = true → s.host.descriptors = d :: ds →
    step s = exec (.start d.cfgW d.cfgH)
      (s.withHost { s.host with descriptors := ds, edges := s.host.edges.tail }))

/-- A step runs the instruction its port's beat decodes to, with the edge and the offer used up (R20, R42, R83). -/
def Obligations.StepRunsTheDecodedBeat : Prop :=
  ∀ (s : State) (b : Beat), s.edge.rst = false → s.transfer = some b →
    (decodeBeat b).WellFormed ∧ step s = exec (decodeBeat b) (s.tick.accept b)

/-- The ready, valid, busy and dot equations; the pixel and the dot transfer are one; START and STEP exclude each other (R20); `dot`
has no value while `dot_valid` is 0 (R24, U7). -/
def Obligations.HandshakeEquations : Prop :=
  ∀ s : State,
    (s.startReady = true ↔ s.seq.phase = .idle) ∧ (s.busy = true ↔ s.seq.phase = .run) ∧
    (s.pixReady = true ↔ s.seq.phase = .run ∧ s.dotReady = true) ∧
    (s.dotValid = true ↔ s.seq.phase = .run ∧ s.pixValid = true) ∧
    (s.pixValid && s.pixReady) = (s.dotValid && s.dotReady) ∧
    ((s.pixValid && s.pixReady) = true ↔ s.seq.phase = .run ∧ s.pixValid = true ∧ s.dotReady = true) ∧
    ¬ ((s.startValid && s.startReady) = true ∧ (s.pixValid && s.pixReady) = true) ∧
    (s.dotValid = true → ∃ w ws, s.host.pixels = w :: ws ∧ s.dot = some (pixelBit (PixelSample.ofWord w))) ∧
    (s.dotValid = false → s.dot = none)

/-- `done` is 1 after an edge exactly when that edge emitted DONE (R18). -/
def Obligations.DonePulsesWithTheDoneEvent : Prop :=
  ∀ s t : State, step s = .next t →
    (s.edge.rst = true → t.done = false) ∧
    (s.edge.rst = false → ∃ es, t.trace = s.trace ++ es ∧ (t.done = true ↔ Event.done ∈ es))

/-! ### Reset -/

/-- What reset leaves, for every DIM_BITS: the values the spec gives (R24), and nothing in the trace and the two spaces (that
GRID lists nothing is log 6). -/
def Obligations.ResetStateValues : Prop :=
  ∀ n : Nat, (State.resetAt n).seq = ⟨n, .idle, 0, 0, 0, 0⟩ ∧ (State.resetAt n).busy = false ∧
    (State.resetAt n).done = false ∧ (State.resetAt n).startReady = true ∧ (State.resetAt n).pixReady = false ∧
    (State.resetAt n).dotValid = false ∧ (State.resetAt n).dot = none ∧ (State.resetAt n).trace = [] ∧
    (∀ i, (State.resetAt n).gridRead i = none) ∧ (∀ i, (State.resetAt n).bufRead i = .error (.unwrittenDot i))

/-- R93: at an edge with `rst` = 1 the reset of R94 happens, whatever else the ports say: the unique IDLE state, `done` cleared,
the trace cleared, no event emitted. -/
def Obligations.ResetWinsAtItsEdge : Prop :=
  ∀ s : State, s.edge.rst = true →
    ∃ t, step s = .next t ∧ t.seq = ⟨s.seq.dimBits, .idle, 0, 0, 0, 0⟩ ∧ t.done = false ∧ t.trace = []

/-- What reset does to the model's own records: the two spaces and the wires' record are cleared and the host's offers stay
(the model's choice: log 21, log 4, log 20). -/
def Obligations.ResetClearsTheRecords : Prop :=
  ∀ s : State, s.edge.rst = true →
    ∃ t, step s = .next t ∧ (∀ i, t.gridRead i = none) ∧ (∀ i, t.bufRead i = .error (.unwrittenDot i)) ∧
      t.wires = (State.resetAt s.seq.dimBits).wires ∧ t.host = { s.host with edges := s.host.edges.tail }

/-- Nothing of the past but the sequencer reaches a step: two states that agree on the sequencer and the host's side go on
alike, event for event (R23, R74, R94). -/
def Obligations.NoHiddenState : Prop :=
  ∀ s s' t t' : State, s.seq = s'.seq → s.host = s'.host → step s = .next t → step s' = .next t' →
    t.seq = t'.seq ∧ t.done = t'.done ∧ t.host = t'.host ∧
    (s.edge.rst = false → ∃ es, t.trace = s.trace ++ es ∧ t'.trace = s'.trace ++ es)

/-! ### Invariants -/

/-- R15, for every DIM_BITS: inside a frame the index is y × W + x, below W × H, and inverts to (x, y); an advance moves it on
by exactly one with no wrap of x + 1 or y + 1, and ends the frame at the last pixel and only there; outside a frame it is
(0, 0). -/
def Obligations.CursorWalksRowMajor : Prop :=
  ∀ q : Sequencer, q.Inv →
    (q.phase = .idle → q.x = 0 ∧ q.y = 0) ∧
    (q.phase = .run →
      q.index.toNat = q.y.toNat * q.W.toNat + q.x.toNat ∧ q.index.toNat < q.W.toNat * q.H.toNat ∧
      q.x.toNat = q.index.toNat % q.W.toNat ∧ q.y.toNat = q.index.toNat / q.W.toNat ∧
      (q.index.toNat + 1 < q.W.toNat * q.H.toNat →
        q.advance.phase = .run ∧ q.advance.dimBits = q.dimBits ∧ q.advance.W.toNat = q.W.toNat ∧
        q.advance.H.toNat = q.H.toNat ∧ q.advance.index.toNat = q.index.toNat + 1 ∧
        q.advance.Inv) ∧
      (q.index.toNat + 1 = q.W.toNat * q.H.toNat →
        q.x.toNat = q.W.toNat - 1 ∧ q.y.toNat = q.H.toNat - 1 ∧ q.advance = ⟨q.dimBits, .idle, 0, 0, 0, 0⟩))

/-- R17: its invariants hold after reset, every operation and every step keep them, and there is exactly one IDLE state. -/
def Obligations.SequencerInvariantsPreserved : Prop :=
  (∀ n : Nat, (State.resetAt n).seq.Inv) ∧
  (∀ (i : Instr) (s t : State), s.seq.Inv → exec i s = .next t → t.seq.Inv) ∧
  (∀ s t : State, s.seq.Inv → step s = .next t → t.seq.Inv) ∧
  (∀ q : Sequencer, q.Inv → q.phase = .idle → q = ⟨q.dimBits, .idle, 0, 0, 0, 0⟩)

/-- DIM_BITS is fixed when the instance is built (R6, R22): no operation and no step changes it. -/
def Obligations.DimBitsNeverChanges : Prop :=
  (∀ (i : Instr) (s t : State), exec i s = .next t → t.seq.dimBits = s.seq.dimBits) ∧
  (∀ s t : State, step s = .next t → t.seq.dimBits = s.seq.dimBits)

/-- R78: from a state of R17 every operation that can be given to the instance answers a next state, and so does every step
while the host keeps its duty of R97: nothing faults and nothing is refused. -/
def Obligations.NothingFaults : Prop :=
  (∀ (i : Instr) (s : State), s.seq.Inv → i.Fits s.seq.dimBits → ∃ t, exec i s = .next t) ∧
  (∀ s : State, s.seq.Inv → s.describable → ∃ t, step s = .next t)

/-- The machine's invariant holds right after reset, for every DIM_BITS ≥ 1 (R6), and so for `State.reset`. -/
def Obligations.InvariantAtReset : Prop :=
  (∀ n : Nat, 1 ≤ n → (State.resetAt n).Inv) ∧ State.reset.Inv

/-- Every step keeps the machine's invariant: DIM_BITS ≥ 1 and descriptors that fit it; the registers of R17; GRID read once at each index below the cursor (R32); every
bit of BUF the conversion of its own sample (R36); the trace in the order of R35 and in step with the cursor; BUF what the
trace says of the last frame (R21). -/
def Obligations.EveryStepKeepsTheInvariant : Prop :=
  ∀ s t : State, s.Inv → step s = .next t → t.Inv

/-- Every operation keeps both index spaces in canonical form, indexes strictly rising (log 7). -/
def Obligations.SpacesStayCanonical : Prop :=
  ∀ (i : Instr) (s t : State), Memory.wf s.grid = true → Memory.wf s.buf = true → exec i s = .next t →
    Memory.wf t.grid = true ∧ Memory.wf t.buf = true

/-! ### Whole frames -/

/-- R71: from IDLE, RASTERIZE of a well-formed grid emits START, the dot of every sample in order and DONE, is again in IDLE,
and the BitBuffer read off the trace is `rasterize grid`; GRID and BUF hold every sample and its bit. The spec infers the trace
from R69 and R70; that one execution of RASTERIZE runs the whole frame is log 18. -/
def Obligations.RasterizeConvertsTheGrid : Prop :=
  ∀ (g : PixelGrid) (s : State), s.seq.Inv → s.seq.phase = .idle → (Instr.rasterize g).WellFormed →
    (Instr.rasterize g).Fits s.seq.dimBits →
    ∃ t, exec (.rasterize g) s = .next t ∧
      t.trace = s.trace ++ .start g.width g.height :: (dotsFrom 0 g.samples ++ [.done]) ∧
      t.seq = ⟨s.seq.dimBits, .idle, 0, 0, 0, 0⟩ ∧ t.done = true ∧
      bitBuffers t.trace = bitBuffers s.trace ++ [rasterize g] ∧
      (∀ i, t.gridRead i = g.samples[i]?.map PixelSample.word) ∧
      (∀ i, t.bufRead i = (match g.samples[i]? with | some p => .ok (pixelBit p) | none => .error (.unwrittenDot i))) ∧
      (∀ p, g.samples.getLast? = some p → ∃ u, exec (.pixel p) s = .next u ∧ t.wires = u.wires) ∧
      (g.samples = [] → t.wires = s.wires) ∧ t.host = s.host

/-- R72: a W×H grid gives exactly W×H dots in row-major order, the i-th that of sample i with index i, between START and DONE,
and the BitBuffer has the grid's width and height and those bits. That one execution of RASTERIZE runs the frame is log 18. -/
def Obligations.RasterizePreservesDimensions : Prop :=
  ∀ (g : PixelGrid) (s : State), s.seq.Inv → s.seq.phase = .idle → (Instr.rasterize g).WellFormed →
    (Instr.rasterize g).Fits s.seq.dimBits →
    ∃ (t : State) (b : BitBuffer) (dots : List Event), exec (.rasterize g) s = .next t ∧
      t.trace = s.trace ++ .start g.width g.height :: (dots ++ [.done]) ∧
      dots.length = g.width * g.height ∧
      (∀ (i : Nat) (p : PixelSample), g.samples[i]? = some p → dots[i]? = some (Event.dot i (pixelBit p))) ∧
      bitBuffers t.trace = bitBuffers s.trace ++ [b] ∧
      b.width = g.width ∧ b.height = g.height ∧ b.bits.length = g.width * g.height ∧
      (∀ (i : Nat) (p : PixelSample), g.samples[i]? = some p → b.bits[i]? = some (pixelBit p))

/-- R73: an empty grid, from IDLE, gives START and DONE at once and an empty BitBuffer of its dimensions; no word is consumed
and no dot produced. It is executed as a RASTERIZE, log 18. -/
def Obligations.EmptyGridIsAnEmptyBuffer : Prop :=
  ∀ (g : PixelGrid) (s : State), s.seq.Inv → s.seq.phase = .idle → (Instr.rasterize g).WellFormed →
    (Instr.rasterize g).Fits s.seq.dimBits →
    g.width = 0 ∨ g.height = 0 →
    ∃ t, exec (.rasterize g) s = .next t ∧ t.trace = s.trace ++ [.start g.width g.height, .done] ∧
      bitBuffers t.trace = bitBuffers s.trace ++ [⟨g.width, g.height, []⟩] ∧
      t.seq = s.seq ∧ t.host = s.host

/-- Rasterizing the same grid twice, one frame after the other, gives two bit-identical BitBuffers (R74, §8). -/
def Obligations.SameGridTwiceSameBuffer : Prop :=
  ∀ (g : PixelGrid) (s : State), s.seq.Inv → s.seq.phase = .idle → (Instr.rasterize g).WellFormed →
    (Instr.rasterize g).Fits s.seq.dimBits →
    ∃ t u b, exec (.rasterize g) s = .next t ∧ exec (.rasterize g) t = .next u ∧
      bitBuffers u.trace = bitBuffers s.trace ++ [b, b]

/-- Two instances that each take a band of rows of one grid give the BitBuffer's bits in two parts (R90, R36). -/
def Obligations.BandsOfRowsConcatenate : Prop :=
  ∀ (g upper lower : PixelGrid) (s s' : State), s.seq.Inv → s.seq.phase = .idle → s'.seq.Inv → s'.seq.phase = .idle →
    (Instr.rasterize upper).WellFormed → (Instr.rasterize lower).WellFormed →
    upper.width = g.width → lower.width = g.width → g.height = upper.height + lower.height →
    g.samples = upper.samples ++ lower.samples →
    (Instr.rasterize g).Fits s.seq.dimBits → (Instr.rasterize lower).Fits s'.seq.dimBits →
    ∃ t t' u b b' c, exec (.rasterize upper) s = .next t ∧ exec (.rasterize lower) s' = .next t' ∧
      exec (.rasterize g) s = .next u ∧ bitBuffers t.trace = bitBuffers s.trace ++ [b] ∧
      bitBuffers t'.trace = bitBuffers s'.trace ++ [b'] ∧ bitBuffers u.trace = bitBuffers s.trace ++ [c] ∧
      c.bits = b.bits ++ b'.bits

/-- In RUN the START of a RASTERIZE is not enabled and the whole frame waits (R69, R71, R101; log 18). -/
def Obligations.RasterizeWaitsInRun : Prop :=
  ∀ (g : PixelGrid) (s : State), s.seq.phase = .run → exec (.rasterize g) s = .next (s.withDone false)

/-- R41 on a grid that breaks the length invariant: too few words leave the frame running without DONE; too many leave the
block IDLE with the surplus words still offered, first in line. -/
def Obligations.ShortAndLongGrids : Prop :=
  ∀ (g : PixelGrid) (s : State), s.seq.Inv → s.seq.phase = .idle → (Instr.rasterize g).Fits s.seq.dimBits →
    ∃ t, exec (.rasterize g) s = .next t ∧
      (g.samples.length < g.width * g.height →
        t.seq.phase = .run ∧ t.pixReady = t.dotReady ∧ t.trace = s.trace ++ .start g.width g.height :: dotsFrom 0 g.samples ∧
        t.host = s.host) ∧
      (g.width * g.height < g.samples.length →
        t.seq.phase = .idle ∧ t.pixReady = false ∧
        t.host = { s.host with
          pixels := (g.samples.drop (g.width * g.height)).map PixelSample.word ++ s.host.pixels })

/-- R81: in RUN, if no pixel word is ever offered or the consumer is never ready, the block waits for as long as that lasts:
no step ever changes the registers or emits an event, and the run is not final. -/
def Obligations.StarvedFrameWaits : Prop :=
  ∀ (s : State) (k : Nat), s.seq.phase = .run → s.noReset →
    (s.host.pixels = [] ∨ (∀ e ∈ s.host.edges, e.pixValid = false) ∨ (∀ e ∈ s.host.edges, e.dotReady = false)) →
    ∃ t : State, Host.Core.run Sys2Proof.core k s = .next t ∧ t.seq = s.seq ∧ t.trace = s.trace ∧
      t.grid = s.grid ∧ t.buf = s.buf ∧ t.host.pixels = s.host.pixels ∧ t.final = false

/-- R107: if the host lists enough joint transfers and words, with any other edges between them, the running frame reaches DONE
after exactly the STEPs it has left, and its dots depend on its words alone. The spec marks the rule as its own inference from
R70; the host's lists are log 8. -/
def Obligations.FairHostCompletesTheFrame : Prop :=
  ∀ s : State, s.seq.Inv → s.seq.phase = .run → s.noReset →
    s.seq.remaining ≤ s.host.pixels.length → s.seq.remaining ≤ (s.host.edges.filter Edge.joint).length →
    ∃ (k : Nat) (t : State), k ≤ s.host.edges.length ∧ Host.Core.run Sys2Proof.core k s = .next t ∧
      t.seq = ⟨s.seq.dimBits, .idle, 0, 0, 0, 0⟩ ∧ t.done = true ∧
      t.trace = s.trace ++ dotsFrom s.seq.index.toNat ((s.host.pixels.take s.seq.remaining).map PixelSample.ofWord) ++
        [.done] ∧
      t.host.pixels = s.host.pixels.drop s.seq.remaining

/-! ### Formats -/

/-- R43: a pixel word is r × 2^24 + g × 2^16 + b × 2^8 + a, and packing and splitting undo each other on every word. -/
def Obligations.PixelWordLayout : Prop :=
  (∀ p : PixelSample, p.word.toNat =
    p.red.toNat * 2 ^ 24 + p.green.toNat * 2 ^ 16 + p.blue.toNat * 2 ^ 8 + p.alpha.toNat) ∧
  (∀ p : PixelSample, PixelSample.ofWord p.word = p) ∧ (∀ w : PixWord, (PixelSample.ofWord w).word = w)

/-- R46: the fields of a pixel word, by their bits, and alpha's bits 5 to 0 have no effect on the dot. -/
def Obligations.PixelFieldExtraction : Prop :=
  (∀ (w : PixWord) (k : Nat), k < 8 →
    (PixelSample.ofWord w).red.getLsbD k = w.getLsbD (24 + k) ∧ (PixelSample.ofWord w).green.getLsbD k = w.getLsbD (16 + k) ∧
    (PixelSample.ofWord w).blue.getLsbD k = w.getLsbD (8 + k) ∧ (PixelSample.ofWord w).alpha.getLsbD k = w.getLsbD k) ∧
  (∀ w v : PixWord, w.toNat / 64 = v.toNat / 64 →
    pixelBit (PixelSample.ofWord w) = pixelBit (PixelSample.ofWord v))

/-- R44, for every DIM_BITS: a descriptor is {cfg_h, cfg_w}, H in the upper DIM_BITS bits and W in the lower, and every pair
can be packed; a width or height of 2^DIM_BITS or more cannot be described to the instance. -/
def Obligations.DescriptorLayout : Prop :=
  (∀ (n : Nat) (w h : BitVec n), (descWord w h).toNat = h.toNat * 2 ^ n + w.toNat) ∧
  (∀ (n : Nat) (w h : BitVec n), DescWord.cfgW (descWord w h) = w ∧ DescWord.cfgH (descWord w h) = h) ∧
  (∀ (n : Nat) (d : DescWord n), descWord (DescWord.cfgW d) (DescWord.cfgH d) = d) ∧
  (∀ (n : Nat) (d : Descriptor), (∃ w, Beat.ofBits n .F (n + n) w = .ok (.desc d)) ↔ d.cfgW < 2 ^ n ∧ d.cfgH < 2 ^ n)

/-- Every beat an instance can be given is read back from its bits, and whatever is read from bits can be given to the instance,
has the format's one length, and has those bits: no bit is dropped (R42 to R45, R49), for every DIM_BITS. -/
def Obligations.BeatBitsRoundTrip : Prop :=
  (∀ (n : Nat) (b : Beat), b.Fits n → Beat.ofBits n b.format (b.format.nbits n) (b.bits n) = .ok b) ∧
  (∀ (n : Nat) (f : Format) (nbits w : Nat) (b : Beat), Beat.ofBits n f nbits w = .ok b →
    b.Fits n ∧ b.format = f ∧ nbits = f.nbits n ∧ b.bits n = w % 2 ^ nbits)

/-- Decoding the beats of a well-formed instruction gives it back, with whatever beats follow left over; all fourteen rows
(R42, R48, R49). Each of its beats is read back from its bits in every instance the instruction can be given to. The decoder is
given the row, log 16. -/
def Obligations.DecodeOfEncode : Prop :=
  ∀ (i : Instr) (rest : List Beat), i.WellFormed → decode i.op (encode i ++ rest) = .ok (i, rest) ∧
    ∀ n : Nat, i.Fits n → ∀ b ∈ encode i, Beat.ofBits n b.format (b.format.nbits n) (b.bits n) = .ok b

/-- Whatever a row's decoder reads is well formed, of that row, and encodes to the very beats read: no bit is dropped (R49). -/
def Obligations.EncodeOfDecode : Prop :=
  ∀ (op : Op) (beats rest : List Beat) (i : Instr), decode op beats = .ok (i, rest) →
    i.WellFormed ∧ i.op = op ∧ encode i ++ rest = beats

/-- The decoder of the RASTERIZE row rejects a descriptor with fewer than W×H pixel words by name. This is the model's choice,
log 16: the spec gives the length as an invariant of a grid (R25), and the block itself cannot detect its breach (R41). -/
def Obligations.ShortGridRejected : Prop :=
  ∀ (w h : Nat) (ps : List PixelSample), ps.length < w * h →
    decode .rasterize (.desc ⟨w, h⟩ :: ps.map fun p => .pix p.word) = .error (.shortGrid (w * h - ps.length))

/-- Words written out from the spec decode to what they stand for: {10,10,10,255} as 0x0A0A0AFF, {200,100,84,255} as
0xC86454FF, {0,0,0,191} as 0x000000BF, and the 2×1 descriptor, with DIM_BITS = 16, as 0x00010002 (R43, R44). -/
def Obligations.SpecWordsDecode : Prop :=
  decodeBeat (.pix 0x0A0A0AFF#32) = .step ⟨10, 10, 10, 255⟩ ∧
  decode .luma [.pix 0xC86454FF#32] = .ok (.luma ⟨200, 100, 84, 255⟩, []) ∧
  decode .ashamt [.pix 0x000000BF#32] = .ok (.ashamt ⟨0, 0, 0, 191⟩, []) ∧
  Beat.ofBits 16 .F 32 0x00010002 = .ok (.desc ⟨2, 1⟩) ∧ decodeBeat (.desc ⟨2, 1⟩) = .start 2 1 ∧
  decode .rasterize [.desc ⟨2, 1⟩, .pix 0xFFFFFFFF#32, .pix 0x000000FF#32] =
    .ok (.rasterize ⟨2, 1, [⟨255, 255, 255, 255⟩, ⟨0, 0, 0, 255⟩]⟩, [])
end

