-- ==== Sys2Proof/Laws/State.lean ====
section
/-! SUPPORT. One lemma per field of State and update of it, so that no proof unfolds a record update. -/

namespace Sys2Proof.Machine

variable (s : State)

@[simp] theorem State.emit_seq (e : Event) : (s.emit e).seq = s.seq := rfl
@[simp] theorem State.emit_done (e : Event) : (s.emit e).done = s.done := rfl
@[simp] theorem State.emit_wires (e : Event) : (s.emit e).wires = s.wires := rfl
@[simp] theorem State.emit_grid (e : Event) : (s.emit e).grid = s.grid := rfl
@[simp] theorem State.emit_buf (e : Event) : (s.emit e).buf = s.buf := rfl
@[simp] theorem State.emit_trace (e : Event) : (s.emit e).trace = s.trace ++ [e] := rfl
@[simp] theorem State.emit_host (e : Event) : (s.emit e).host = s.host := rfl

@[simp] theorem State.withWires_seq (w : Wires) : (s.withWires w).seq = s.seq := rfl
@[simp] theorem State.withWires_done (w : Wires) : (s.withWires w).done = s.done := rfl
@[simp] theorem State.withWires_wires (w : Wires) : (s.withWires w).wires = w := rfl
@[simp] theorem State.withWires_grid (w : Wires) : (s.withWires w).grid = s.grid := rfl
@[simp] theorem State.withWires_buf (w : Wires) : (s.withWires w).buf = s.buf := rfl
@[simp] theorem State.withWires_trace (w : Wires) : (s.withWires w).trace = s.trace := rfl
@[simp] theorem State.withWires_host (w : Wires) : (s.withWires w).host = s.host := rfl

@[simp] theorem State.withSeq_seq (q : Sequencer) : (s.withSeq q).seq = q := rfl
@[simp] theorem State.withSeq_done (q : Sequencer) : (s.withSeq q).done = s.done := rfl
@[simp] theorem State.withSeq_wires (q : Sequencer) : (s.withSeq q).wires = s.wires := rfl
@[simp] theorem State.withSeq_grid (q : Sequencer) : (s.withSeq q).grid = s.grid := rfl
@[simp] theorem State.withSeq_buf (q : Sequencer) : (s.withSeq q).buf = s.buf := rfl
@[simp] theorem State.withSeq_trace (q : Sequencer) : (s.withSeq q).trace = s.trace := rfl
@[simp] theorem State.withSeq_host (q : Sequencer) : (s.withSeq q).host = s.host := rfl

@[simp] theorem State.withDone_seq (d : Bool) : (s.withDone d).seq = s.seq := rfl
@[simp] theorem State.withDone_done (d : Bool) : (s.withDone d).done = d := rfl
@[simp] theorem State.withDone_wires (d : Bool) : (s.withDone d).wires = s.wires := rfl
@[simp] theorem State.withDone_grid (d : Bool) : (s.withDone d).grid = s.grid := rfl
@[simp] theorem State.withDone_buf (d : Bool) : (s.withDone d).buf = s.buf := rfl
@[simp] theorem State.withDone_trace (d : Bool) : (s.withDone d).trace = s.trace := rfl
@[simp] theorem State.withDone_host (d : Bool) : (s.withDone d).host = s.host := rfl

@[simp] theorem State.withHost_seq (h : HostSide) : (s.withHost h).seq = s.seq := rfl
@[simp] theorem State.withHost_done (h : HostSide) : (s.withHost h).done = s.done := rfl
@[simp] theorem State.withHost_wires (h : HostSide) : (s.withHost h).wires = s.wires := rfl
@[simp] theorem State.withHost_grid (h : HostSide) : (s.withHost h).grid = s.grid := rfl
@[simp] theorem State.withHost_buf (h : HostSide) : (s.withHost h).buf = s.buf := rfl
@[simp] theorem State.withHost_trace (h : HostSide) : (s.withHost h).trace = s.trace := rfl
@[simp] theorem State.withHost_host (h : HostSide) : (s.withHost h).host = h := rfl

@[simp] theorem State.openSpaces_seq : (s.openSpaces).seq = s.seq := rfl
@[simp] theorem State.openSpaces_done : (s.openSpaces).done = s.done := rfl
@[simp] theorem State.openSpaces_wires : (s.openSpaces).wires = s.wires := rfl
@[simp] theorem State.openSpaces_grid : (s.openSpaces).grid = [] := rfl
@[simp] theorem State.openSpaces_buf : (s.openSpaces).buf = [] := rfl
@[simp] theorem State.openSpaces_trace : (s.openSpaces).trace = s.trace := rfl
@[simp] theorem State.openSpaces_host : (s.openSpaces).host = s.host := rfl

@[simp] theorem State.present_seq (i : Nat) (p : PixelSample) : (s.present i p).seq = s.seq := rfl
@[simp] theorem State.present_done (i : Nat) (p : PixelSample) : (s.present i p).done = s.done := rfl
@[simp] theorem State.present_wires (i : Nat) (p : PixelSample) : (s.present i p).wires = s.wires := rfl
@[simp] theorem State.present_grid (i : Nat) (p : PixelSample) : (s.present i p).grid = Memory.write i p.word s.grid := rfl
@[simp] theorem State.present_buf (i : Nat) (p : PixelSample) : (s.present i p).buf = s.buf := rfl
@[simp] theorem State.present_trace (i : Nat) (p : PixelSample) : (s.present i p).trace = s.trace := rfl
@[simp] theorem State.present_host (i : Nat) (p : PixelSample) : (s.present i p).host = s.host := rfl

@[simp] theorem State.bufWrite_seq (i : Nat) (b : BitVec 1) : (s.bufWrite i b).seq = s.seq := rfl
@[simp] theorem State.bufWrite_done (i : Nat) (b : BitVec 1) : (s.bufWrite i b).done = s.done := rfl
@[simp] theorem State.bufWrite_wires (i : Nat) (b : BitVec 1) : (s.bufWrite i b).wires = s.wires := rfl
@[simp] theorem State.bufWrite_grid (i : Nat) (b : BitVec 1) : (s.bufWrite i b).grid = s.grid := rfl
@[simp] theorem State.bufWrite_buf (i : Nat) (b : BitVec 1) : (s.bufWrite i b).buf = Memory.write i b s.buf := rfl
@[simp] theorem State.bufWrite_trace (i : Nat) (b : BitVec 1) : (s.bufWrite i b).trace = s.trace := rfl
@[simp] theorem State.bufWrite_host (i : Nat) (b : BitVec 1) : (s.bufWrite i b).host = s.host := rfl

@[simp] theorem State.noTransfer_seq : (s.noTransfer).seq = s.seq := rfl
@[simp] theorem State.noTransfer_done : (s.noTransfer).done = false := rfl
@[simp] theorem State.noTransfer_wires : (s.noTransfer).wires = s.wires := rfl
@[simp] theorem State.noTransfer_grid : (s.noTransfer).grid = s.grid := rfl
@[simp] theorem State.noTransfer_buf : (s.noTransfer).buf = s.buf := rfl
@[simp] theorem State.noTransfer_trace : (s.noTransfer).trace = s.trace := rfl
@[simp] theorem State.noTransfer_host : (s.noTransfer).host = s.host := rfl

@[simp] theorem State.tick_seq : (s.tick).seq = s.seq := rfl
@[simp] theorem State.tick_done : (s.tick).done = s.done := rfl
@[simp] theorem State.tick_wires : (s.tick).wires = s.wires := rfl
@[simp] theorem State.tick_grid : (s.tick).grid = s.grid := rfl
@[simp] theorem State.tick_buf : (s.tick).buf = s.buf := rfl
@[simp] theorem State.tick_trace : (s.tick).trace = s.trace := rfl
@[simp] theorem State.tick_host : (s.tick).host = { s.host with edges := s.host.edges.tail } := rfl

@[simp] theorem State.applyReset_seq : (s.applyReset).seq = Sequencer.idle s.seq.dimBits := rfl
@[simp] theorem State.applyReset_done : (s.applyReset).done = false := rfl
@[simp] theorem State.applyReset_wires : (s.applyReset).wires = Wires.none := rfl
@[simp] theorem State.applyReset_grid : (s.applyReset).grid = [] := rfl
@[simp] theorem State.applyReset_buf : (s.applyReset).buf = [] := rfl
@[simp] theorem State.applyReset_trace : (s.applyReset).trace = [] := rfl
@[simp] theorem State.applyReset_host : (s.applyReset).host = s.host := rfl

@[simp] theorem State.returnWords_seq (ps : List PixelSample) : (s.returnWords ps).seq = s.seq := rfl
@[simp] theorem State.returnWords_done (ps : List PixelSample) : (s.returnWords ps).done = s.done := rfl
@[simp] theorem State.returnWords_wires (ps : List PixelSample) : (s.returnWords ps).wires = s.wires := rfl
@[simp] theorem State.returnWords_grid (ps : List PixelSample) : (s.returnWords ps).grid = s.grid := rfl
@[simp] theorem State.returnWords_buf (ps : List PixelSample) : (s.returnWords ps).buf = s.buf := rfl
@[simp] theorem State.returnWords_trace (ps : List PixelSample) : (s.returnWords ps).trace = s.trace := rfl
@[simp] theorem State.returnWords_host (ps : List PixelSample) : (s.returnWords ps).host = { s.host with pixels := ps.map PixelSample.word ++ s.host.pixels } := rfl

@[simp] theorem State.loadPixel_seq (i : Nat) (p : PixelSample) : (s.loadPixel i p).seq = s.seq := rfl
@[simp] theorem State.loadPixel_done (i : Nat) (p : PixelSample) : (s.loadPixel i p).done = s.done := rfl
@[simp] theorem State.loadPixel_wires (i : Nat) (p : PixelSample) : (s.loadPixel i p).wires = s.wires.load p := rfl
@[simp] theorem State.loadPixel_grid (i : Nat) (p : PixelSample) : (s.loadPixel i p).grid = Memory.write i p.word s.grid := rfl
@[simp] theorem State.loadPixel_buf (i : Nat) (p : PixelSample) : (s.loadPixel i p).buf = s.buf := rfl
@[simp] theorem State.loadPixel_trace (i : Nat) (p : PixelSample) : (s.loadPixel i p).trace = s.trace := rfl
@[simp] theorem State.loadPixel_host (i : Nat) (p : PixelSample) : (s.loadPixel i p).host = s.host := rfl

@[simp] theorem State.storeBit_seq (i : Nat) (b : BitVec 1) : (s.storeBit i b).seq = s.seq := rfl
@[simp] theorem State.storeBit_done (i : Nat) (b : BitVec 1) : (s.storeBit i b).done = s.done := rfl
@[simp] theorem State.storeBit_wires (i : Nat) (b : BitVec 1) : (s.storeBit i b).wires = s.wires := rfl
@[simp] theorem State.storeBit_grid (i : Nat) (b : BitVec 1) : (s.storeBit i b).grid = s.grid := rfl
@[simp] theorem State.storeBit_buf (i : Nat) (b : BitVec 1) : (s.storeBit i b).buf = Memory.write i b s.buf := rfl
@[simp] theorem State.storeBit_trace (i : Nat) (b : BitVec 1) : (s.storeBit i b).trace = s.trace ++ [.dot i b] := rfl
@[simp] theorem State.storeBit_host (i : Nat) (b : BitVec 1) : (s.storeBit i b).host = s.host := rfl

/-! Accepting a beat touches the host's offers alone. -/

@[simp] theorem State.accept_seq (b : Beat) : (s.accept b).seq = s.seq := by cases b <;> rfl
@[simp] theorem State.accept_done (b : Beat) : (s.accept b).done = s.done := by cases b <;> rfl
@[simp] theorem State.accept_wires (b : Beat) : (s.accept b).wires = s.wires := by cases b <;> rfl
@[simp] theorem State.accept_grid (b : Beat) : (s.accept b).grid = s.grid := by cases b <;> rfl
@[simp] theorem State.accept_buf (b : Beat) : (s.accept b).buf = s.buf := by cases b <;> rfl
@[simp] theorem State.accept_trace (b : Beat) : (s.accept b).trace = s.trace := by cases b <;> rfl
@[simp] theorem State.accept_pix_host (w : PixWord) : (s.accept (.pix w)).host = { s.host with pixels := s.host.pixels.tail } := rfl
@[simp] theorem State.accept_desc_host (d : Descriptor) :
    (s.accept (.desc d)).host = { s.host with descriptors := s.host.descriptors.tail } := rfl

end Sys2Proof.Machine
end

