-- ==== Sys2Proof/Laws/Datapath.lean ====
section
/-! SUPPORT. What each stage of the datapath computes, on the numbers. -/

namespace Sys2Proof.Machine

/-- SUM3 is exact: ten bits hold the sum (R53). -/
theorem sum3_toNat (r g b : Channel) : (sum3 r g b).toNat = r.toNat + g.toNat + b.toNat := by
  have hr := r.isLt
  have hg := g.isLt
  have hb := b.isLt
  simp only [sum3, BitVec.toNat_add, BitVec.toNat_setWidth]
  omega

/-- The sum is at most 765. -/
theorem sum3_le (r g b : Channel) : (sum3 r g b).toNat ≤ 765 := by
  have hr := r.isLt
  have hg := g.isLt
  have hb := b.isLt
  rw [sum3_toNat]
  omega

/-- DIV3 is the floor of a third (R54). -/
theorem div3_toNat (sum : BitVec 10) (h : sum.toNat ≤ 765) : (div3 sum).toNat = sum.toNat / 3 := by
  have e : (3#10).toNat = 3 := rfl
  simp only [div3, if_pos h, BitVec.toNat_setWidth, BitVec.toNat_udiv, e]
  omega

/-- LUMA is the unweighted mean of the colour channels (R55). -/
theorem luma_toNat (r g b : Channel) : (luma r g b).toNat = (r.toNat + g.toNat + b.toNat) / 3 := by
  rw [luma, div3_toNat _ (sum3_le r g b), sum3_toNat]

/-- THRESH is the top bit of avg (R57). -/
theorem thresh_toNat (avg : BitVec 8) : (thresh avg).toNat = avg.toNat / 128 := by
  have h := avg.isLt
  simp only [thresh, BitVec.toNat_setWidth, BitVec.toNat_ushiftRight, Nat.shiftRight_eq_div_pow]
  omega

/-- INV subtracts from one (R59). -/
theorem inv_toNat (w : BitVec 1) : (inv w).toNat = 1 - w.toNat := by
  have h := w.isLt
  simp only [inv, BitVec.toNat_sub, BitVec.toNat_ofNat]
  omega

/-- ASHAMT is three less the top two bits of alpha (R60). -/
theorem ashamt_toNat (a : Channel) : (ashamt a).toNat = 3 - a.toNat / 64 := by
  have h := a.isLt
  simp only [ashamt, Config.alphaSense, ashamtWith, BitVec.toNat_sub, BitVec.toNat_setWidth,
    BitVec.toNat_ushiftRight, BitVec.toNat_ofNat, Nat.shiftRight_eq_div_pow]
  omega

/-- SHMUX divides by a power of two (R61). -/
theorem shmux_toNat (b : BitVec 1) (k : BitVec 2) : (shmux b k).toNat = b.toNat / 2 ^ k.toNat := by
  simp only [shmux, BitVec.toNat_ushiftRight, Nat.shiftRight_eq_div_pow]

end Sys2Proof.Machine
end

