-- ==== Sys2Proof/Laws/Ops.lean ====
section
/-! SUPPORT. What each shared operation can do, said once. -/

namespace Sys2Proof.Machine

/-- The access at the cursor waits in IDLE, acts inside the frame in RUN, and faults outside it. -/
theorem State.atCursor_cases (s waiting : State) (access : Nat → State) :
    (s.seq.phase = .idle ∧ s.atCursor waiting access = .next waiting) ∨
    (s.seq.phase = .run ∧ s.seq.index.toNat < s.seq.size ∧ s.atCursor waiting access = .next (access s.seq.index.toNat)) ∨
    (s.seq.phase = .run ∧ s.seq.size ≤ s.seq.index.toNat ∧
      s.atCursor waiting access = .fault (.outsideFrame s.seq.index.toNat)) := by
  unfold State.atCursor
  cases h : s.seq.phase with
  | idle => exact .inl ⟨rfl, rfl⟩
  | run =>
    by_cases hi : s.seq.index.toNat < s.seq.size
    · exact .inr (.inl ⟨rfl, hi, if_pos hi⟩)
    · exact .inr (.inr ⟨rfl, Nat.le_of_not_lt hi, if_neg hi⟩)

/-- The cursor moves within the row, to the next row, or the frame ends. -/
theorem Sequencer.advance_cases (q : Sequencer) :
    (q.isLast = false ∧ q.x.toNat + 1 < q.W.toNat ∧ q.advance = { q with x := q.x + 1 }) ∨
    (q.isLast = false ∧ q.W.toNat ≤ q.x.toNat + 1 ∧ q.y.toNat + 1 < q.H.toNat ∧
      q.advance = { q with x := 0, y := q.y + 1 }) ∨
    (q.isLast = true ∧ q.W.toNat ≤ q.x.toNat + 1 ∧ q.H.toNat ≤ q.y.toNat + 1 ∧ q.advance = Sequencer.idle q.dimBits) := by
  unfold Sequencer.isLast Sequencer.advance
  by_cases hx : q.x.toNat + 1 < q.W.toNat
  · exact .inl ⟨by simp [hx], hx, if_pos hx⟩
  · by_cases hy : q.y.toNat + 1 < q.H.toNat
    · exact .inr (.inl ⟨by simp [hy], Nat.le_of_not_lt hx, hy, by rw [if_neg hx, if_pos hy]⟩)
    · exact .inr (.inr ⟨by simp [hx, hy], Nat.le_of_not_lt hx, Nat.le_of_not_lt hy, by rw [if_neg hx, if_neg hy]⟩)

/-- A STEP moves the sequencer on and pulses `done` with `DONE` exactly when the pixel was the last. -/
theorem State.advance_cases (s : State) :
    (s.seq.isLast = true ∧ s.advance = ((s.withSeq s.seq.advance).withDone true).emit .done) ∨
    (s.seq.isLast = false ∧ s.advance = (s.withSeq s.seq.advance).withDone false) := by
  unfold State.advance
  cases s.seq.isLast
  · exact .inr ⟨rfl, rfl⟩
  · exact .inl ⟨rfl, rfl⟩

/-- A descriptor accepted in IDLE is done at once or opens its frame. -/
theorem State.startFrame_cases (s : State) (w h : Nat) :
    ((w = 0 ∨ h = 0) ∧ s.startFrame w h = ((s.openSpaces.emit (.start w h)).withDone true).emit .done) ∨
    ((w ≠ 0 ∧ h ≠ 0) ∧
      s.startFrame w h = ((s.openSpaces.emit (.start w h)).withSeq (Sequencer.launch s.seq.dimBits w h)).withDone false) := by
  unfold State.startFrame
  by_cases he : w = 0 ∨ h = 0
  · exact .inl ⟨he, if_pos he⟩
  · exact .inr ⟨not_or.1 he, if_neg he⟩

/-- A cursor that moves stays in an instance of the same width. -/
@[simp] theorem Sequencer.advance_dimBits (q : Sequencer) : q.advance.dimBits = q.dimBits := by
  rcases q.advance_cases with ⟨-, -, e⟩ | ⟨-, -, -, e⟩ | ⟨-, -, -, e⟩ <;> rw [e]
  rfl

@[simp] theorem Sequencer.idle_dimBits (n : Nat) : (Sequencer.idle n).dimBits = n := rfl
@[simp] theorem Sequencer.launch_dimBits (n w h : Nat) : (Sequencer.launch n w h).dimBits = n := rfl

/-- The first pixel of a frame has index 0. -/
@[simp] theorem Sequencer.launch_index (n w h : Nat) : (Sequencer.launch n w h).index.toNat = 0 := by
  show ((0 : BitVec n).setWidth (n + n) * (BitVec.ofNat n w).setWidth (n + n) + (0 : BitVec n).setWidth (n + n)).toNat = 0
  simp

/-- The frame registers hold a descriptor that fits them. -/
theorem Sequencer.launch_toNat {n w h : Nat} (hf : Descriptor.Fits n ⟨w, h⟩) :
    (Sequencer.launch n w h).W.toNat = w ∧ (Sequencer.launch n w h).H.toNat = h :=
  ⟨Nat.mod_eq_of_lt hf.1, Nat.mod_eq_of_lt hf.2⟩

/-- A frame that has just opened waits for the dot of index 0. -/
theorem Sequencer.launch_monitor {n w h : Nat} (hf : Descriptor.Fits n ⟨w, h⟩) :
    (Sequencer.launch n w h).monitor = .frame (w * h) 0 := by
  show Monitor.frame ((Sequencer.launch n w h).W.toNat * (Sequencer.launch n w h).H.toNat) _ = _
  rw [(Sequencer.launch_toNat hf).1, (Sequencer.launch_toNat hf).2, Sequencer.launch_index]

/-- Accepting a beat leaves the cursor where it is. -/
@[simp] theorem State.accept_index (s : State) (b : Beat) : (s.accept b).seq.index.toNat = s.seq.index.toNat := by
  rw [State.accept_seq]

/-- START waits in RUN, and in IDLE accepts a descriptor that fits DIM_BITS and refuses any other. -/
theorem execStart_cases (w h : Nat) (s : State) :
    (s.seq.phase = .run ∧ execStart w h s = .next s.noTransfer) ∨
    (s.seq.phase = .idle ∧ Descriptor.Fits s.seq.dimBits ⟨w, h⟩ ∧ execStart w h s = .next (s.startFrame w h)) ∨
    (s.seq.phase = .idle ∧ ¬ Descriptor.Fits s.seq.dimBits ⟨w, h⟩ ∧ execStart w h s = .refused (.notDescribable w h)) := by
  unfold execStart
  cases hp : s.seq.phase with
  | run => exact .inl ⟨rfl, rfl⟩
  | idle =>
    by_cases hf : Descriptor.Fits s.seq.dimBits ⟨w, h⟩
    · exact .inr (.inl ⟨rfl, hf, if_pos hf⟩)
    · exact .inr (.inr ⟨rfl, hf, if_neg hf⟩)

/-- An edge transfers the oldest descriptor in IDLE, the oldest pixel word in RUN, or nothing. -/
theorem State.transfer_cases (s : State) :
    (∃ d ds, s.seq.phase = .idle ∧ s.edge.startValid = true ∧ s.host.descriptors = d :: ds ∧ s.transfer = some (.desc d)) ∨
    (∃ w ws, s.seq.phase = .run ∧ s.edge.pixValid = true ∧ s.edge.dotReady = true ∧ s.host.pixels = w :: ws ∧
      s.transfer = some (.pix w)) ∨
    ((s.seq.phase = .idle → s.startValid = false) ∧ (s.seq.phase = .run → (s.pixValid && s.dotReady) = false) ∧
      s.transfer = none) := by
  unfold State.transfer State.startValid State.startReady State.pixValid State.pixReady State.dotReady
  cases hp : s.seq.phase <;> cases hd : s.host.descriptors <;> cases hx : s.host.pixels <;>
    cases hs : s.edge.startValid <;> cases hv : s.edge.pixValid <;> cases hr : s.edge.dotReady <;> simp

/-- Chaining, when the first operation answers a next state. -/
@[simp] theorem andThen_next (s : State) (f : State → Host.Outcome State Fault Refusal) :
    andThen (.next s) f = f s := rfl

/-- If a chain answers a next state, so did its first operation. -/
theorem andThen_eq_next {o : Host.Outcome State Fault Refusal} {f : State → Host.Outcome State Fault Refusal} {t : State}
    (h : andThen o f = .next t) : ∃ s, o = .next s ∧ f s = .next t := by
  cases o with
  | next s => exact ⟨s, rfl, h⟩
  | fault r => cases h
  | refused r => cases h

end Sys2Proof.Machine
end

