-- ==== Sys2Proof/Laws/Frame.lean ====
section
/-! SUPPORT. Field by field, what the writes of one STEP leave. -/

namespace Sys2Proof.Machine

variable (s : State) (i : Nat) (p : PixelSample)

/-- The writes of a STEP, as the record update they make. -/
theorem State.convert_eq :
    s.convert i p =
      { s with
        seq := s.seq.advance, done := s.seq.isLast, wires := s.wires.pixel p
        grid := Memory.write i p.word s.grid, buf := Memory.write i (pixelBit p) s.buf
        trace := s.trace ++ .dot i (pixelBit p) :: (if s.seq.isLast then [.done] else []) } := by
  unfold State.convert
  rcases State.advance_cases (((s.loadPixel i p).withWires (s.wires.pixel p)).storeBit i (pixelBit p)) with
    ⟨hl, he⟩ | ⟨hl, he⟩ <;>
  · replace hl : s.seq.isLast = _ := hl
    rw [he, hl]
    simp [State.withSeq, State.withDone, State.emit, State.storeBit, State.bufWrite, State.loadPixel, State.present,
      State.withWires]

@[simp] theorem State.convert_seq : (s.convert i p).seq = s.seq.advance := by rw [State.convert_eq]
@[simp] theorem State.convert_index : (s.convert i p).seq.index.toNat = s.seq.advance.index.toNat := by
  rw [State.convert_seq]
@[simp] theorem State.convert_done : (s.convert i p).done = s.seq.isLast := by rw [State.convert_eq]
@[simp] theorem State.convert_wires : (s.convert i p).wires = s.wires.pixel p := by rw [State.convert_eq]
@[simp] theorem State.convert_grid : (s.convert i p).grid = Memory.write i p.word s.grid := by rw [State.convert_eq]
@[simp] theorem State.convert_buf : (s.convert i p).buf = Memory.write i (pixelBit p) s.buf := by rw [State.convert_eq]
@[simp] theorem State.convert_trace :
    (s.convert i p).trace = s.trace ++ .dot i (pixelBit p) :: (if s.seq.isLast then [.done] else []) := by
  rw [State.convert_eq]
@[simp] theorem State.convert_host : (s.convert i p).host = s.host := by rw [State.convert_eq]

end Sys2Proof.Machine
end

