-- ==== Sys2Proof/Laws/Memory.lean ====
section
/-! SUPPORT. The index spaces: read after write, the canonical form, and a write past the end. -/

namespace Sys2Proof.Machine

variable {w : Nat}

@[simp] theorem Memory.read_nil (i : Nat) : Memory.read ([] : Memory w) i = none := rfl

@[simp] theorem Memory.read_cons (j : Nat) (u : BitVec w) (m : Memory w) (i : Nat) :
    Memory.read ((j, u) :: m) i = if i = j then some u else Memory.read m i := rfl

/-- A read after a write: the value at the place written, and every other place as before. -/
theorem Memory.read_write (i : Nat) (v : BitVec w) (m : Memory w) (k : Nat) :
    Memory.read (Memory.write i v m) k = if k = i then some v else Memory.read m k := by
  induction m with
  | nil => rfl
  | cons c m ih =>
    obtain ⟨j, u⟩ := c
    unfold Memory.write
    split
    · rfl
    · split
      · subst_vars
        simp only [Memory.read_cons]
        split <;> rfl
      · simp only [Memory.read_cons, ih]
        split <;> split <;> first | rfl | omega

/-- The canonical form says that the indexes rise strictly. -/
theorem Memory.wf_iff_pairwise (m : Memory w) : Memory.wf m = true ↔ (m.map Prod.fst).Pairwise (· < ·) := by
  induction m with
  | nil => simp [Memory.wf]
  | cons c m ih =>
    cases m with
    | nil => simp [Memory.wf]
    | cons d m =>
      simp only [Memory.wf, Bool.and_eq_true, decide_eq_true_eq, ih]
      simp only [List.map_cons, List.pairwise_cons, List.mem_cons, List.mem_map]
      constructor
      · rintro ⟨h, h1, h2⟩
        refine ⟨?_, h1, h2⟩
        rintro a (rfl | ⟨e, he, rfl⟩)
        · exact h
        · exact h.trans (h1 _ ⟨e, he, rfl⟩)
      · rintro ⟨h, h1, h2⟩
        exact ⟨h _ (Or.inl rfl), h1, h2⟩

/-- The indexes of a memory after a write: those it had, and the one written. -/
theorem Memory.mem_write_fst (i : Nat) (v : BitVec w) (m : Memory w) (k : Nat) :
    k ∈ (Memory.write i v m).map Prod.fst ↔ k = i ∨ k ∈ m.map Prod.fst := by
  induction m with
  | nil => simp [Memory.write]
  | cons c m ih =>
    obtain ⟨j, u⟩ := c
    unfold Memory.write
    split
    · simp
    · split
      · subst_vars
        simp
      · simp only [List.map_cons, List.mem_cons, ih]
        tauto

/-- A write keeps the canonical form. -/
theorem Memory.write_wf (i : Nat) (v : BitVec w) (m : Memory w) (h : Memory.wf m = true) :
    Memory.wf (Memory.write i v m) = true := by
  rw [Memory.wf_iff_pairwise] at h ⊢
  induction m with
  | nil => simp [Memory.write]
  | cons c m ih =>
    obtain ⟨j, u⟩ := c
    simp only [List.map_cons, List.pairwise_cons] at h
    unfold Memory.write
    split
    · rename_i hij
      simp only [List.map_cons, List.pairwise_cons, List.mem_cons]
      exact ⟨fun a ha => ha.elim (· ▸ hij) fun ha => hij.trans (h.1 a ha), h⟩
    · split
      · subst_vars
        simpa using h
      · simp only [List.map_cons, List.pairwise_cons]
        refine ⟨fun a ha => ?_, ih h.2⟩
        rcases (Memory.mem_write_fst i v m a).1 ha with rfl | ha
        · omega
        · exact h.1 a ha

/-- The memories right after reset are canonical. -/
theorem State.reset_memories_wf : Memory.wf State.reset.grid = true ∧ Memory.wf State.reset.buf = true := ⟨rfl, rfl⟩

/-- A write past every listed index appends. -/
theorem Memory.write_append (i : Nat) (v : BitVec w) (m : Memory w) (h : ∀ k ∈ m.map Prod.fst, k < i) :
    Memory.write i v m = m ++ [(i, v)] := by
  induction m with
  | nil => rfl
  | cons c m ih =>
    obtain ⟨j, u⟩ := c
    have hj : j < i := h j (by simp)
    unfold Memory.write
    rw [if_neg (by omega), if_neg (by omega), ih fun k hk => h k (by simp [hk])]
    rfl

end Sys2Proof.Machine
end

