-- ==== Sys2Proof/Laws/PerInstr.lean ====
section
/-! SUPPORT. Per-instruction laws: the beats an instruction is encoded in are those of its row's format (R42, R48). -/

namespace Sys2Proof

/-- The formats the operation map gives each row: P, O for STBIT, F for START, "F then W*H of P" for RASTERIZE. -/
def Instr.formats : Instr → List Format
  | .sum3 _ | .div3 _ | .luma _ | .thresh _ | .inv _ | .ashamt _ | .shmux _ | .ainv _ | .pixel _ => [.P]
  | .ldpix _ | .step _ => [.P]
  | .stbit _ => [.O]
  | .start _ _ => [.F]
  | .rasterize g => .F :: List.replicate g.samples.length .P

namespace Laws.RowFormat

/-- The instruction's beats have its row's formats, in order. -/
def Statement (i : Instr) : Prop := (encode i).map Beat.format = i.formats

theorem sum3 (p : PixelSample) : Statement (.sum3 p) := rfl
theorem div3 (p : PixelSample) : Statement (.div3 p) := rfl
theorem luma (p : PixelSample) : Statement (.luma p) := rfl
theorem thresh (p : PixelSample) : Statement (.thresh p) := rfl
theorem inv (p : PixelSample) : Statement (.inv p) := rfl
theorem ashamt (p : PixelSample) : Statement (.ashamt p) := rfl
theorem shmux (p : PixelSample) : Statement (.shmux p) := rfl
theorem ainv (p : PixelSample) : Statement (.ainv p) := rfl
theorem pixel (p : PixelSample) : Statement (.pixel p) := rfl
theorem ldpix (p : PixelSample) : Statement (.ldpix p) := rfl
theorem stbit (dot : BitVec 1) : Statement (.stbit dot) := rfl
theorem step (p : PixelSample) : Statement (.step p) := rfl
theorem start (cfgW cfgH : Nat) : Statement (.start cfgW cfgH) := rfl
theorem rasterize (grid : PixelGrid) : Statement (.rasterize grid) := by
  simp [Statement, encode, Instr.formats, Beat.format, List.map_eq_replicate_iff]

end Laws.RowFormat

end Sys2Proof
end

