-- ==== Sys2Proof/Laws/Step.lean ====
section
/-! SUPPORT. What one step of the machine can do. -/

namespace Sys2Proof.Machine

/-- A step that answers a next state is a reset, a START in IDLE, a STEP in RUN, or an edge without a transfer. -/
theorem step_cases {s t : State} (h : step s = .next t) :
    (s.edge.rst = true ∧ t = s.tick.applyReset) ∨
    (∃ d, s.edge.rst = false ∧ s.seq.phase = .idle ∧ s.host.descriptors.head? = some d ∧ s.transfer = some (.desc d) ∧
      d.Fits s.seq.dimBits ∧ t = (s.tick.accept (.desc d)).startFrame d.cfgW d.cfgH) ∨
    (∃ w, s.edge.rst = false ∧ s.seq.phase = .run ∧ s.host.pixels.head? = some w ∧ s.transfer = some (.pix w) ∧
      s.seq.index.toNat < s.seq.size ∧
      t = (s.tick.accept (.pix w)).convert s.seq.index.toNat (PixelSample.ofWord w)) ∨
    (s.edge.rst = false ∧ s.transfer = none ∧ t = s.tick.noTransfer) := by
  unfold step at h
  cases hr : s.edge.rst with
  | true =>
    rw [hr, if_pos rfl] at h
    cases h
    exact .inl ⟨rfl, rfl⟩
  | false =>
    rw [hr, if_neg Bool.false_ne_true] at h
    rcases s.transfer_cases with ⟨d, ds, hp, -, hd, htr⟩ | ⟨w, ws, hp, -, -, hw, htr⟩ | ⟨-, -, htr⟩
    · rw [htr] at h
      simp only [decodeBeat, exec] at h
      rcases execStart_cases d.cfgW d.cfgH (s.tick.accept (.desc d)) with ⟨hp', -⟩ | ⟨-, hf, he⟩ | ⟨-, -, he⟩
      · rw [State.accept_seq, State.tick_seq, hp] at hp'
        cases hp'
      · rw [he] at h
        cases h
        exact .inr (.inl ⟨d, rfl, hp, by rw [hd]; rfl, htr, hf, rfl⟩)
      · rw [he] at h
        cases h
    · rw [htr] at h
      simp only [decodeBeat, exec, execStep] at h
      rcases State.atCursor_cases (s.tick.accept (.pix w)) (s.tick.accept (.pix w)).noTransfer
        (fun i => (s.tick.accept (.pix w)).convert i (PixelSample.ofWord w)) with ⟨hp', -⟩ | ⟨-, hi, he⟩ | ⟨-, -, he⟩
      · rw [State.accept_seq, State.tick_seq, hp] at hp'
        cases hp'
      · rw [he] at h
        cases h
        exact .inr (.inr (.inl ⟨w, rfl, hp, by rw [hw]; rfl, htr, hi, rfl⟩))
      · rw [he] at h
        cases h
    · rw [htr] at h
      cases h
      exact .inr (.inr (.inr ⟨rfl, htr, rfl⟩))

/-- A run goes on from where its first step leads. -/
theorem run_succ_of_step {s t : State} (k : Nat) (h : step s = .next t) :
    Host.Core.run Sys2Proof.core (k + 1) s = Host.Core.run Sys2Proof.core k t := by
  have h' : Sys2Proof.core.step s = .next t := h
  simp only [Host.Core.run, h']

end Sys2Proof.Machine
end

