-- ==== Sys2Proof/Laws/Trace.lean ====
section
/-! SUPPORT. The trace's monitor, the dots of its last frame and the BitBuffers read off it, event by event and over a longer
trace. -/

namespace Sys2Proof.Machine

@[simp] theorem Monitor.run_nil (m : Monitor) : Monitor.run m [] = some m := rfl

@[simp] theorem Monitor.run_cons (m : Monitor) (e : Event) (es : List Event) :
    Monitor.run m (e :: es) = (m.accept e).bind fun m' => Monitor.run m' es := by
  rw [Monitor.run]
  cases m.accept e <;> rfl

/-- A longer trace runs on from where the shorter one stands. -/
@[simp] theorem Monitor.run_append (es fs : List Event) (m : Monitor) :
    Monitor.run m (es ++ fs) = (Monitor.run m es).bind fun m' => Monitor.run m' fs := by
  induction es generalizing m with
  | nil => rfl
  | cons e es ih =>
    rw [List.cons_append, Monitor.run_cons, Monitor.run_cons]
    cases m.accept e with
    | none => rfl
    | some m' => exact ih m'

@[simp] theorem Monitor.accept_start (w h : Nat) :
    Monitor.idle.accept (.start w h) = some (if w = 0 ∨ h = 0 then .closing else .frame (w * h) 0) := rfl

@[simp] theorem Monitor.accept_dot (size next i : Nat) (b : BitVec 1) :
    (Monitor.frame size next).accept (.dot i b) =
      if i = next then some (if next + 1 = size then .closing else .frame size (next + 1)) else none := rfl

@[simp] theorem Monitor.accept_done : Monitor.closing.accept .done = some .idle := rfl

@[simp] theorem frameDots_nil (m : Memory 1) : frameDots m [] = m := rfl
@[simp] theorem frameDots_start (m : Memory 1) (w h : Nat) (es : List Event) :
    frameDots m (.start w h :: es) = frameDots [] es := rfl
@[simp] theorem frameDots_dot (m : Memory 1) (i : Nat) (b : BitVec 1) (es : List Event) :
    frameDots m (.dot i b :: es) = frameDots (m ++ [(i, b)]) es := rfl
@[simp] theorem frameDots_done (m : Memory 1) (es : List Event) : frameDots m (.done :: es) = frameDots m es := rfl

/-- The last frame's dots of a longer trace. -/
@[simp] theorem frameDots_append (es fs : List Event) (m : Memory 1) :
    frameDots m (es ++ fs) = frameDots (frameDots m es) fs := by
  induction es generalizing m with
  | nil => rfl
  | cons e es ih =>
    cases e with
    | start w h => exact ih _
    | dot i b => exact ih _
    | done => exact ih _

@[simp] theorem buffersFrom_nil (b : Option BitBuffer) : buffersFrom b [] = [] := by cases b <;> rfl
@[simp] theorem buffersFrom_start (b : Option BitBuffer) (w h : Nat) (es : List Event) :
    buffersFrom b (.start w h :: es) = buffersFrom (some ⟨w, h, []⟩) es := by cases b <;> rfl
@[simp] theorem buffersFrom_dot (b : BitBuffer) (i : Nat) (bit : BitVec 1) (es : List Event) :
    buffersFrom (some b) (.dot i bit :: es) = buffersFrom (some { b with bits := b.bits ++ [bit] }) es := rfl
@[simp] theorem buffersFrom_done (b : BitBuffer) (es : List Event) :
    buffersFrom (some b) (.done :: es) = b :: buffersFrom none es := rfl

/-- Whatever frame was under way, a START opens a new one after the BitBuffers already complete. -/
theorem buffersFrom_append_start (es : List Event) (w h : Nat) (fs : List Event) (b : Option BitBuffer) :
    buffersFrom b (es ++ .start w h :: fs) = buffersFrom b es ++ buffersFrom (some ⟨w, h, []⟩) fs := by
  induction es generalizing b with
  | nil => cases b <;> rfl
  | cons e es ih =>
    cases e <;> cases b <;>
      simp only [List.cons_append, buffersFrom, ih]

end Sys2Proof.Machine
end

