-- ==== Sys2Proof/Tests/Slice0.lean ====
section
/-! SUPPORT. Tests: expected values are those of spec/95_test_vectors.md and of the rules' worked examples; and for each
statement with hypotheses a state and operands that meet them. -/

namespace Sys2Proof.Machine.Tests

/-- The state an operation answers, if it answers one. -/
def after (o : Host.Outcome State Fault Refusal) : Option State :=
  match o with
  | .next s => some s
  | _ => none

/-- A block with DIM_BITS = 16 in RUN with the given frame registers and cursor. -/
def running (w h x y : BitVec 16) : State :=
  State.reset.withSeq ⟨16, .run, w, h, x, y⟩

/-- The block after reset, with the host offering descriptors and words at the listed edges. -/
def offered (ds : List Descriptor) (ws : List PixWord) (es : List Edge) : State :=
  State.reset.withHost ⟨ds, ws, es⟩

/-- An edge at which everything is offered and the consumer is ready. -/
def eager : Edge := ⟨false, true, true, true⟩

/-- {127,128,128,255}: sum 383, the luminance boundary on the dark side (95_test_vectors.md 2.6). -/
def dark383 : PixelSample := ⟨127, 128, 128, 255⟩

/-- {200,100,84,255}: sum 384, white (95_test_vectors.md 2.6). -/
def white384 : PixelSample := ⟨200, 100, 84, 255⟩

/-! ### WellFormed: the one check, with a term it refuses -/

theorem test_grid_2x1_well_formed : (Instr.rasterize ⟨2, 1, [white384, dark383]⟩).WellFormed := by decide
theorem test_grid_short_ill_formed : ¬ (Instr.rasterize ⟨2, 1, [white384]⟩).WellFormed := by decide

/-! ### Decoding: words written out from formats P, F and O (R43, R44, R45) -/

theorem test_decode_sum3 : decode .sum3 [.pix 0b11001000011001000101010011111111#32] = .ok (.sum3 white384, []) := by decide
theorem test_decode_div3 : decode .div3 [.pix 0b01111111100000001000000011111111#32] = .ok (.div3 dark383, []) := by decide
theorem test_decode_luma : decode .luma [.pix 0x0A0A0AFF#32] = .ok (.luma ⟨10, 10, 10, 255⟩, []) := by decide
theorem test_decode_thresh : decode .thresh [.pix 0x808080FF#32] = .ok (.thresh ⟨128, 128, 128, 255⟩, []) := by decide
theorem test_decode_inv : decode .inv [.pix 0xFF8000FF#32] = .ok (.inv ⟨255, 128, 0, 255⟩, []) := by decide
theorem test_decode_ashamt : decode .ashamt [.pix 0b00000000000000000000000010111111#32] = .ok (.ashamt ⟨0, 0, 0, 191⟩, []) := by
  decide
theorem test_decode_shmux : decode .shmux [.pix 0x00000040#32] = .ok (.shmux ⟨0, 0, 0, 64⟩, []) := by decide
theorem test_decode_ainv : decode .ainv [.pix 0x010101C1#32] = .ok (.ainv ⟨1, 1, 1, 193⟩, []) := by decide
theorem test_decode_pixel : decode .pixel [.pix 0xC86453FF#32] = .ok (.pixel ⟨200, 100, 83, 255⟩, []) := by decide
theorem test_decode_ldpix : decode .ldpix [.pix 0x646464C8#32] = .ok (.ldpix ⟨100, 100, 100, 200⟩, []) := by decide
theorem test_decode_stbit : decode .stbit [.dot 1#1] = .ok (.stbit 1, []) := by decide
theorem test_decode_step : decodeBeat (.pix 0b00001010000010100000101011111111#32) = .step ⟨10, 10, 10, 255⟩ := by decide
theorem test_decode_start : (Beat.ofBits 16 .F 32 0b00000000000000010000000000000010).map decodeBeat = .ok (.start 2 1) := by decide
theorem test_decode_rasterize : decode .rasterize [.desc ⟨1, 1⟩, .pix 0x00000000#32] =
    .ok (.rasterize ⟨1, 1, [⟨0, 0, 0, 0⟩]⟩, []) := by decide
theorem test_decode_wrong_port : decode .start [.pix 0x00010002#32] = .error (.wrongFormat .start .P) := by decide
theorem test_decode_wrong_length : Beat.ofBits 16 .P 31 0 = .error (.wrongLength .P 31) := by decide
theorem test_descriptor_bits : Beat.ofBits 4 .F 8 0x21 = .ok (.desc ⟨1, 2⟩) ∧ Beat.bits 16 (.desc ⟨2, 1⟩) = 0x00010002 := by decide
theorem test_decode_short_grid : decode .rasterize [.desc ⟨2, 1⟩, .pix 0#32] = .error (.shortGrid 1) := by decide
theorem test_table_word : decodeTableWord 32 0x0A0A0AFF = some (.step ⟨10, 10, 10, 255⟩) ∧
    decodeTableWord 8 1 = some (.stbit 1) ∧ decodeTableWord 16 0 = none := by decide

/-! ### The datapath (95_test_vectors.md 2.1 to 2.6) -/

theorem test_sum3_384 : (after (exec (.sum3 white384) State.reset)).map (·.wires.sum) = some (some 384#10) := by decide
theorem test_sum3_765 : sum3 255 255 255 = 765#10 := by decide
theorem test_div3_383 : (after (exec (.div3 dark383) State.reset)).map (·.wires.avg) = some (some 127#8) := by decide
theorem test_div3_corners : div3 2 = 0#8 ∧ div3 384 = 128#8 ∧ div3 386 = 128#8 ∧ div3 764 = 254#8 ∧ div3 765 = 255#8 := by decide
theorem test_luma_truncates : (after (exec (.luma ⟨128, 128, 127, 0⟩) State.reset)).map (·.wires.avg) = some (some 127#8) := by
  decide
theorem test_thresh_boundary : thresh 127 = 0#1 ∧ thresh 128 = 1#1 := by decide
theorem test_thresh_white : (after (exec (.thresh white384) State.reset)).map (·.wires.whiteness) = some (some 1#1) := by decide
theorem test_inv_dark : (after (exec (.inv dark383) State.reset)).map (·.wires.baseBlack) = some (some 1#1) := by decide
theorem test_ashamt_191 : (after (exec (.ashamt ⟨0, 0, 0, 191⟩) State.reset)).map (·.wires.shamt) = some (some 1#2) := by decide
theorem test_ashamt_corners : ashamt 0 = 3#2 ∧ ashamt 63 = 3#2 ∧ ashamt 64 = 2#2 ∧ ashamt 127 = 2#2 ∧ ashamt 192 = 0#2 := by decide
theorem test_shmux_table : shmux 1 0 = 1#1 ∧ shmux 1 1 = 0#1 ∧ shmux 1 2 = 0#1 ∧ shmux 1 3 = 0#1 ∧ shmux 0 0 = 0#1 := by decide
theorem test_shmux_opaque : (after (exec (.shmux dark383) State.reset)).map (·.wires.finalBlack) = some (some 1#1) := by decide
theorem test_ainv_vectors : ainv 0 255 = 1#1 ∧ ainv 0 192 = 1#1 ∧ ainv 0 191 = 0#1 ∧ ainv 0 0 = 0#1 ∧ ainv 1 255 = 0#1 := by decide
theorem test_ainv_transparent : (after (exec (.ainv ⟨0, 0, 0, 0⟩) State.reset)).map (·.wires.finalBlack) = some (some 0#1) := by
  decide
theorem test_pixel_boundaries :
    [pixelBit dark383, pixelBit white384, pixelBit ⟨128, 127, 127, 192⟩, pixelBit ⟨0, 0, 0, 191⟩, pixelBit ⟨0, 0, 0, 0⟩,
      pixelBit ⟨255, 255, 255, 255⟩] = [1, 0, 1, 0, 0, 0] := by decide
theorem test_pixel_wires : (after (exec (.pixel ⟨0, 0, 0, 127⟩) State.reset)).map (·.wires) =
    some ⟨some 0, some 0, some 0, some 127, some 0, some 0, some 0, some 1, some 2, some 0⟩ := by decide

/-! ### LDPIX, STBIT, STEP, START, RASTERIZE (95_test_vectors.md 2.7, 2.8, section 3; worked examples of R67 to R71) -/

theorem test_ldpix_index : (after (exec (.ldpix white384) (running 3 2 2 1))).map (fun t => (t.gridRead 5, t.gridRead 4)) =
    some (some 0xC86454FF#32, none) := by decide
theorem test_stbit_dot : (after (exec (.stbit 1) (running 2 1 1 0))).map (fun t => (t.trace, t.seq.x.toNat)) =
    some ([.dot 1 1], 1) := by decide
theorem test_step_row_wrap : (after (exec (.step dark383) (running 3 2 2 0))).map (fun t => (t.seq, t.trace, t.done)) =
    some (⟨16, .run, 3, 2, 0, 1⟩, [.dot 2 1], false) := by decide
theorem test_step_last : (after (exec (.step ⟨10, 10, 10, 192⟩) (running 3 2 2 1))).map (fun t => (t.seq, t.trace, t.done)) =
    some (⟨16, .idle, 0, 0, 0, 0⟩, [.dot 5 1, .done], true) := by decide
theorem test_start_opens : (after (exec (.start 2 1) State.reset)).map (fun t => (t.seq, t.trace)) =
    some (⟨16, .run, 2, 1, 0, 0⟩, [.start 2 1]) := by decide
theorem test_start_empty : (after (exec (.start 0 5) State.reset)).map (fun t => (t.seq, t.trace, t.done)) =
    some (⟨16, .idle, 0, 0, 0, 0⟩, [.start 0 5, .done], true) := by decide
/-- The corner values of DIM_BITS = 2: the widest frame opens, one wider is refused (R44, R69). -/
theorem test_start_narrow_instance : (after (exec (.start 3 3) (State.resetAt 2))).map (·.seq) = some ⟨2, .run, 3, 3, 0, 0⟩ ∧
    exec (.start 4 1) (State.resetAt 2) = .refused (.notDescribable 4 1) :=
  ⟨by decide, rfl⟩
theorem test_rasterize_2x1 : (after (exec (.rasterize ⟨2, 1, [⟨255, 255, 255, 255⟩, ⟨0, 0, 0, 255⟩]⟩) State.reset)).map
    (fun t => (t.trace, bitBuffers t.trace)) =
      some ([.start 2 1, .dot 0 0, .dot 1 1, .done], [⟨2, 1, [0, 1]⟩]) := by decide
theorem test_rasterize_alpha_ramp :
    (after (exec (.rasterize ⟨1, 4, [⟨0, 0, 0, 0⟩, ⟨0, 0, 0, 64⟩, ⟨0, 0, 0, 128⟩, ⟨0, 0, 0, 192⟩]⟩) State.reset)).map
      (fun t => bitBuffers t.trace) = some [⟨1, 4, [0, 0, 0, 1]⟩] := by decide

/-! ### One edge of the machine (95_test_vectors.md 2.7 to 2.9) -/

theorem test_edge_start : (after (step (offered [⟨2, 1⟩] [] [eager]))).map (fun t => (t.seq, t.host)) =
    some (⟨16, .run, 2, 1, 0, 0⟩, ⟨[], [], []⟩) := by decide
theorem test_edge_back_pressure :
    (after (step ((offered [] [0#32] [⟨false, false, true, false⟩]).withSeq ⟨16, .run, 3, 2, 1, 1⟩))).map
      (fun t => (t.seq, t.host.pixels, t.trace)) = some (⟨16, .run, 3, 2, 1, 1⟩, [0#32], []) := by decide
theorem test_edge_reset_wins :
    (after (step ((offered [] [0#32] [⟨true, false, true, true⟩]).withSeq ⟨16, .run, 3, 2, 1, 1⟩))).map
      (fun t => (t.seq, t.host.pixels, t.trace)) = some (⟨16, .idle, 0, 0, 0, 0⟩, [0#32], []) := by decide
theorem test_edge_quiet_after_reset : (after (step State.reset)) = some State.reset := by decide
theorem test_fetch_word : (after (step (State.reset.withFetchWord 32 0x0A0A0AFF))).map (·.trace) = some [.dot 0 1, .done] ∧
    (after (step (State.reset.withFetchWord 8 1))).map (·.trace) = some [.dot 0 1, .done] := by decide
theorem test_outputs_in_run : ((offered [] [0x000000FF#32] [eager]).withSeq ⟨16, .run, 1, 1, 0, 0⟩).dot = some 1#1 := by decide
theorem test_unwritten_dot_faults : (running 2 1 0 0).bufRead 1 = .error (.unwrittenDot 1) := rfl

/-! ### Hypotheses that can be met -/

/-- In a frame, inside R17: LDPIX, STBIT and STEP. -/
theorem witness_running : (running 3 2 2 1).seq.Inv ∧ (running 3 2 2 1).seq.phase = .run := by decide
/-- The three branches of STEP: next column, row wrap, last pixel. -/
theorem witness_step_branches : (running 3 2 0 0).seq.Inv ∧ (0 + 1 < 3) ∧ (running 3 2 2 0).seq.Inv ∧
    (running 3 2 2 1).seq.isLast = true := by decide
/-- The branches of the cursor's walk, at another width: not the last index, and the last. -/
theorem witness_cursor : (⟨2, .run, 3, 2, 2, 0⟩ : Sequencer).Inv ∧ (⟨2, .run, 3, 2, 2, 0⟩ : Sequencer).index.toNat + 1 < 3 * 2 ∧
    (⟨2, .run, 3, 2, 2, 1⟩ : Sequencer).Inv ∧ (⟨2, .run, 3, 2, 2, 1⟩ : Sequencer).index.toNat + 1 = 3 * 2 := by decide
/-- IDLE inside R17 with a well-formed, an empty, a short and a long grid, all of which fit the instance: RASTERIZE. -/
theorem witness_idle_grids : State.reset.seq.Inv ∧ State.reset.seq.phase = .idle ∧
    (Instr.rasterize ⟨1, 1, [dark383]⟩).WellFormed ∧ (Instr.rasterize ⟨0, 3, []⟩).WellFormed ∧
    ([dark383].length < 2 * 1) ∧ (1 * 1 < [dark383, white384].length) ∧
    (∀ d ∈ [(⟨1, 1⟩ : Descriptor), ⟨0, 3⟩, ⟨2, 1⟩], d.Fits State.reset.seq.dimBits) := by decide
/-- Grids and descriptors that the instance can be given, at the top of its range and beyond it: START, RASTERIZE, step. -/
theorem witness_fits : (Instr.rasterize ⟨1, 1, [dark383]⟩).Fits State.reset.seq.dimBits ∧
    (Instr.start 65535 65535).Fits State.reset.seq.dimBits ∧ 2 ^ State.reset.seq.dimBits ≤ 65536 ∧
    (let s := offered [⟨65536, 1⟩] [] [eager]
     s.seq.phase = .idle ∧ s.edge.rst = false ∧ s.startValid = true ∧ ¬ Descriptor.Fits s.seq.dimBits ⟨65536, 1⟩) :=
  ⟨(by decide : Descriptor.Fits 16 ⟨1, 1⟩), (by decide : Descriptor.Fits 16 ⟨65535, 65535⟩), by decide, by decide⟩
/-- A host that keeps the duty of R97, holding a descriptor. -/
theorem witness_describable : (offered [⟨2, 1⟩] [] [eager]).describable ∧ (offered [⟨2, 1⟩] [] [eager]).seq.Inv :=
  ⟨by unfold State.describable; decide, by decide⟩
/-- Beats that fit, and bits that are read. -/
theorem witness_beat_bits : Beat.Fits 2 (.desc ⟨3, 3⟩) ∧ (∃ b, Beat.ofBits 2 .F 4 0xF = .ok b) :=
  ⟨(by decide : Descriptor.Fits 2 ⟨3, 3⟩), ⟨_, rfl⟩⟩
/-- Two bands of one row each, and the grid they make, for two instances in IDLE. -/
theorem witness_bands : State.reset.seq.Inv ∧ (State.resetAt 1).seq.Inv ∧ (State.resetAt 1).seq.phase = .idle ∧
    (Instr.rasterize ⟨1, 1, [dark383]⟩).WellFormed ∧ (Instr.rasterize ⟨1, 1, [white384]⟩).WellFormed ∧
    (1 : Nat) = 1 ∧ (2 : Nat) = 1 + 1 ∧ [dark383, white384] = [dark383] ++ [white384] ∧
    Descriptor.Fits State.reset.seq.dimBits ⟨1, 2⟩ ∧ Descriptor.Fits (State.resetAt 1).seq.dimBits ⟨1, 1⟩ := by decide
/-- A cursor outside its frame. -/
theorem witness_outside : (running 2 2 2 1).seq.phase = .run ∧ (running 2 2 2 1).seq.size ≤ (running 2 2 2 1).seq.index.toNat := by
  decide
/-- One pixel into a 2×1 frame: one index stored and one not. -/
def halfway : State :=
  { State.reset with seq := ⟨16, .run, 2, 1, 1, 0⟩, grid := [(0, 0xFF#32)], buf := [(0, 1)], trace := [.start 2 1, .dot 0 1] }

/-- The machine's invariant in RUN, with an index below the cursor and one at it. -/
theorem witness_invariant_in_run : halfway.Inv :=
  ⟨by decide, fun _ h => absurd h List.not_mem_nil, by decide, by decide, by decide, by decide, by decide, by decide, by decide⟩
theorem witness_invariant_step : halfway.seq.phase = .run ∧ 0 < halfway.seq.index.toNat ∧ halfway.seq.index.toNat ≤ 1 ∧
    ∃ t, step halfway = .next t := ⟨rfl, by decide, by decide, ⟨_, rfl⟩⟩
/-- Edges: a joint transfer, one withheld on either side, a descriptor in IDLE, and a reset. -/
theorem witness_edges :
    (let s := (offered [] [0#32] [eager]).withSeq ⟨16, .run, 1, 1, 0, 0⟩
     s.edge.rst = false ∧ s.pixValid = true ∧ s.dotReady = true ∧ s.transfer = some (.pix 0#32) ∧ s.dotValid = true) ∧
    (let s := running 1 1 0 0
     s.edge.rst = false ∧ (s.pixValid && s.dotReady) = false ∧ s.dotValid = false) ∧
    (let s := offered [⟨1, 1⟩] [] [eager]
     s.edge.rst = false ∧ s.startValid = true ∧ s.transfer = some (.desc ⟨1, 1⟩)) ∧
    (offered [] [] [⟨true, false, false, false⟩]).edge.rst = true := by decide
/-- A running step that answers a next state, in RUN and without a reset: the waiting descriptor, `done`, the invariants. -/
theorem witness_step_next : ∃ t, step ((offered [⟨1, 1⟩] [0#32] [eager]).withSeq ⟨16, .run, 1, 1, 0, 0⟩) = .next t :=
  ⟨_, rfl⟩
/-- Two states with different pasts that agree on the sequencer and the host's side. -/
theorem witness_two_pasts : (State.reset.emit .done).seq = State.reset.seq ∧ (State.reset.emit .done).host = State.reset.host ∧
    (∃ t, step (State.reset.emit .done) = .next t) ∧ (∃ t, step State.reset = .next t) := ⟨rfl, rfl, ⟨_, rfl⟩, ⟨_, rfl⟩⟩
/-- A starved frame: no word, and no ready consumer. -/
theorem witness_starved : (running 1 1 0 0).noReset ∧ (running 1 1 0 0).host.pixels = [] ∧
    (∀ e ∈ [(⟨false, true, true, false⟩ : Edge)], e.dotReady = false) ∧
    (∀ e ∈ [(⟨false, true, false, true⟩ : Edge)], e.pixValid = false) :=
  ⟨fun _ h => absurd h List.not_mem_nil, rfl, by decide, by decide⟩
/-- A fair host for the last pixel of a 2×1 frame, with an idle edge before the transfer. -/
theorem witness_fair :
    let s := (offered [] [0#32] [⟨false, false, true, false⟩, eager]).withSeq ⟨16, .run, 2, 1, 1, 0⟩
    s.seq.Inv ∧ s.seq.phase = .run ∧ s.noReset ∧ s.seq.remaining ≤ s.host.pixels.length ∧
      s.seq.remaining ≤ (s.host.edges.filter Edge.joint).length :=
  ⟨by decide, rfl, by unfold State.noReset; decide, by decide, by decide⟩
/-- The clauses on a pixel's luminance and alpha, at their boundaries. -/
theorem witness_pixels :
    (192 ≤ (255#8).toNat ∧ 128 ≤ (luma white384.red white384.green white384.blue).toNat) ∧
    (luma dark383.red dark383.green dark383.blue).toNat < 128 ∧ ((191#8).toNat ≤ 191) ∧
    ((192#8).toNat / 64 = (255#8).toNat / 64) ∧ ((0xFF#32).toNat / 64 = (0xC0#32).toNat / 64) := by decide
/-- A function of (base_black, alpha[7:6]) as R64 asks for. -/
theorem witness_r64_function :
    let f : BitVec 1 → BitVec 2 → BitVec 1 := fun b t => if t = 3#2 then b else 0#1
    (∀ b, f b 3#2 = b) ∧ (∀ b, f b 0#2 = 0#1) ∧ (∀ b t, t = 1#2 ∨ t = 2#2 → f b t = b >>> t.toNat) := by decide
/-- Operations that answer a next state from canonical spaces, with the wires' record replaced or not. -/
theorem witness_exec_next : Memory.wf (running 3 2 2 1).grid = true ∧ Memory.wf (running 3 2 2 1).buf = true ∧
    (∃ t, exec (.step dark383) (running 3 2 2 1) = .next t) ∧
    (∃ t, exec (.thresh dark383) ((running 3 2 2 1).withWires Wires.none) = .next t) := ⟨rfl, rfl, ⟨_, rfl⟩, ⟨_, rfl⟩⟩
/-- Beats a row's decoder accepts, and a grid with a word too few. -/
theorem witness_decode : (∃ i rest, decode .step [.pix 0#32, .dot 1#1] = .ok (i, rest)) ∧
    (([] : List PixelSample).length < 1 * 1) := ⟨⟨_, _, rfl⟩, by decide⟩

end Sys2Proof.Machine.Tests
end

section
/-! DIM_BITS is an argument of the instance (R6, R22): each shared operation keeps it, hence every operation and every step. -/

namespace Sys2Proof.Machine

/-- An access at the cursor that answers a next state either waited or acted. -/
theorem State.atCursor_eq_next {s waiting t : State} {access : Nat → State} (h : s.atCursor waiting access = .next t) :
    (s.seq.phase = .idle ∧ t = waiting) ∨
    (s.seq.phase = .run ∧ s.seq.index.toNat < s.seq.size ∧ t = access s.seq.index.toNat) := by
  rcases s.atCursor_cases waiting access with ⟨hp, e⟩ | ⟨hp, hi, e⟩ | ⟨-, -, e⟩ <;> rw [e] at h <;> cases h
  · exact .inl ⟨hp, rfl⟩
  · exact .inr ⟨hp, hi, rfl⟩

/-- What the waiting state and the access keep of DIM_BITS, the access at the cursor keeps. -/
theorem State.atCursor_dimBits {s waiting t : State} {access : Nat → State} (h : s.atCursor waiting access = .next t)
    (hw : waiting.seq.dimBits = s.seq.dimBits) (ha : ∀ i, (access i).seq.dimBits = s.seq.dimBits) :
    t.seq.dimBits = s.seq.dimBits := by
  rcases State.atCursor_eq_next h with ⟨-, rfl⟩ | ⟨-, -, rfl⟩
  · exact hw
  · exact ha _

@[simp] theorem State.startFrame_dimBits (s : State) (w h : Nat) : (s.startFrame w h).seq.dimBits = s.seq.dimBits := by
  rcases s.startFrame_cases w h with ⟨-, e⟩ | ⟨-, e⟩ <;> simp [e]

theorem execLdpix_dimBits {p : PixelSample} {s t : State} (h : execLdpix p s = .next t) :
    t.seq.dimBits = s.seq.dimBits :=
  State.atCursor_dimBits h rfl fun _ => rfl

theorem execStbit_dimBits {dot : BitVec 1} {s t : State} (h : execStbit dot s = .next t) :
    t.seq.dimBits = s.seq.dimBits :=
  State.atCursor_dimBits h rfl fun _ => rfl

theorem execStep_dimBits {p : PixelSample} {s t : State} (h : execStep p s = .next t) :
    t.seq.dimBits = s.seq.dimBits :=
  State.atCursor_dimBits h rfl fun i => by rw [State.convert_seq, Sequencer.advance_dimBits]

theorem execStart_dimBits {w h : Nat} {s t : State} (hs : execStart w h s = .next t) :
    t.seq.dimBits = s.seq.dimBits := by
  rcases execStart_cases w h s with ⟨-, e⟩ | ⟨-, -, e⟩ | ⟨-, -, e⟩ <;> rw [e] at hs <;> cases hs
  · rfl
  · exact s.startFrame_dimBits w h

theorem runSamples_dimBits {ps : List PixelSample} {s t : State} (h : runSamples ps s = .next t) :
    t.seq.dimBits = s.seq.dimBits := by
  induction ps generalizing s with
  | nil =>
    cases h
    rfl
  | cons p ps ih =>
    unfold runSamples at h
    split at h
    · cases h
      rfl
    · obtain ⟨u, hstep, hrest⟩ := andThen_eq_next h
      exact (ih hrest).trans (execStep_dimBits hstep)

theorem execRasterize_dimBits {g : PixelGrid} {s t : State} (h : execRasterize g s = .next t) :
    t.seq.dimBits = s.seq.dimBits := by
  unfold execRasterize at h
  split at h
  · obtain ⟨u, hstart, hrun⟩ := andThen_eq_next h
    exact (runSamples_dimBits hrun).trans (execStart_dimBits hstart)
  · cases h
    rfl

/-- The datapath operations replace the wires' record alone; each other operation moves the sequencer through `atCursor` or
`startFrame`. -/
theorem exec_dimBits {i : Instr} {s t : State} (h : exec i s = .next t) : t.seq.dimBits = s.seq.dimBits := by
  cases i with
  | sum3 p | div3 p | luma p | thresh p | inv p | ashamt p | shmux p | ainv p | pixel p =>
    cases h
    rfl
  | ldpix p => exact execLdpix_dimBits h
  | stbit dot => exact execStbit_dimBits h
  | step p => exact execStep_dimBits h
  | start w h' => exact execStart_dimBits h
  | rasterize g => exact execRasterize_dimBits h

theorem step_dimBits {s t : State} (h : step s = .next t) : t.seq.dimBits = s.seq.dimBits := by
  rcases step_cases h with ⟨-, rfl⟩ | ⟨d, -, -, -, -, -, rfl⟩ | ⟨w, -, -, -, -, -, rfl⟩ | ⟨-, -, rfl⟩
  · rfl
  · rw [State.startFrame_dimBits, State.accept_seq, State.tick_seq]
  · rw [State.convert_seq, Sequencer.advance_dimBits, State.accept_seq, State.tick_seq]
  · rfl

/-- Settles O57: every operation keeps DIM_BITS, and so does every step, reset included. -/
theorem dimBitsNeverChanges : Obligations.DimBitsNeverChanges :=
  ⟨fun _ _ _ => exec_dimBits, fun _ _ => step_dimBits⟩

end Sys2Proof.Machine
end

section
/-! The cursor: the index on the numbers, its place in the frame, and the sequencer's invariants of R17 (R15, R69, R70). -/

namespace Sys2Proof.Machine

/-- The index is `y × W + x`: 2 × DIM_BITS bits hold it, whatever the registers (R15). -/
theorem Sequencer.index_toNat (q : Sequencer) : q.index.toNat = q.y.toNat * q.W.toNat + q.x.toNat := by
  have hlt : q.y.toNat * q.W.toNat + q.x.toNat < 2 ^ (q.dimBits + q.dimBits) := calc
    q.y.toNat * q.W.toNat + q.x.toNat < q.y.toNat * 2 ^ q.dimBits + 2 ^ q.dimBits :=
      Nat.add_lt_add_of_le_of_lt (Nat.mul_le_mul_left _ q.W.isLt.le) q.x.isLt
    _ = (q.y.toNat + 1) * 2 ^ q.dimBits := (Nat.succ_mul _ _).symm
    _ ≤ 2 ^ q.dimBits * 2 ^ q.dimBits := Nat.mul_le_mul_right _ q.y.isLt
    _ = 2 ^ (q.dimBits + q.dimBits) := (pow_add _ _ _).symm
  simp only [Sequencer.index, BitVec.toNat_add, BitVec.toNat_mul, BitVec.toNat_setWidth]
  rw [← Nat.mul_mod, ← Nat.add_mod, Nat.mod_eq_of_lt hlt]

/-- An increment that stays below another register of the same width does not wrap. -/
theorem toNat_add_one_of_lt {n : Nat} {a b : BitVec n} (h : a.toNat + 1 < b.toNat) : (a + 1).toNat = a.toNat + 1 := by
  have hb := b.isLt
  have h1 : (1 : BitVec n).toNat = 1 := Nat.mod_eq_of_lt ((Nat.le_add_left 1 _).trans_lt (h.trans hb))
  rw [BitVec.toNat_add, h1, Nat.mod_eq_of_lt (h.trans hb)]

/-- A cursor inside the frame is at an index inside it (R15). -/
theorem Sequencer.Inv.index_lt_size {q : Sequencer} (hq : q.Inv) (hp : q.phase = .run) : q.index.toNat < q.size := by
  obtain ⟨-, -, hx, hy⟩ := hq.2 hp
  calc q.index.toNat = q.y.toNat * q.W.toNat + q.x.toNat := q.index_toNat
    _ < q.y.toNat * q.W.toNat + q.W.toNat := Nat.add_lt_add_left hx _
    _ = (q.y.toNat + 1) * q.W.toNat := (Nat.succ_mul _ _).symm
    _ ≤ q.H.toNat * q.W.toNat := Nat.mul_le_mul_right _ hy
    _ = q.size := Nat.mul_comm _ _

/-- The all-zero IDLE state meets R17. -/
theorem Sequencer.idle_inv (n : Nat) : (Sequencer.idle n).Inv :=
  ⟨fun _ => ⟨rfl, rfl, rfl, rfl⟩, fun h => (nomatch h)⟩

/-- There is one IDLE state of each width (R17). -/
theorem Sequencer.Inv.eq_idle {q : Sequencer} (hq : q.Inv) (hp : q.phase = .idle) : q = Sequencer.idle q.dimBits := by
  obtain ⟨hW, hH, hx, hy⟩ := hq.1 hp
  obtain ⟨n, phase, W, H, x, y⟩ := q
  rw [Sequencer.idle]
  congr

/-- A frame that opens, not empty and of a size that fits, meets R17 (R69). -/
theorem Sequencer.launch_inv {n w h : Nat} (hf : Descriptor.Fits n ⟨w, h⟩) (hw : w ≠ 0) (hh : h ≠ 0) :
    (Sequencer.launch n w h).Inv := by
  obtain ⟨eW, eH⟩ := Sequencer.launch_toNat hf
  have hx : (Sequencer.launch n w h).x.toNat = 0 := BitVec.toNat_zero
  have hy : (Sequencer.launch n w h).y.toNat = 0 := BitVec.toNat_zero
  exact ⟨fun hp => (nomatch hp), fun _ => by omega⟩

/-- A pixel that is not the last leaves the frame running, its registers as they were, and the index one further on (R15,
R70). -/
theorem Sequencer.advance_inFrame {q : Sequencer} (hq : q.Inv) (hp : q.phase = .run) (hl : q.isLast = false) :
    q.advance.phase = .run ∧ q.advance.W.toNat = q.W.toNat ∧ q.advance.H.toNat = q.H.toNat ∧
      q.advance.index.toNat = q.index.toNat + 1 ∧ q.advance.Inv := by
  obtain ⟨hW, hH, hx, hy⟩ := hq.2 hp
  rcases q.advance_cases with ⟨-, hcol, e⟩ | ⟨-, hend, hrow, e⟩ | ⟨hlast, -, -, -⟩
  · have hx' : (q.x + 1).toNat = q.x.toNat + 1 := toNat_add_one_of_lt hcol
    rw [e]
    refine ⟨hp, rfl, rfl, ?_, fun h => ?_, fun _ => ⟨hW, hH, hx'.trans_lt hcol, hy⟩⟩
    · rw [Sequencer.index_toNat, Sequencer.index_toNat, hx', Nat.add_assoc]
    · cases hp.symm.trans h
  · have hy' : (q.y + 1).toNat = q.y.toNat + 1 := toNat_add_one_of_lt hrow
    have hx' : (0 : BitVec q.dimBits).toNat = 0 := BitVec.toNat_zero
    rw [e]
    refine ⟨hp, rfl, rfl, ?_, fun h => ?_, fun _ => ⟨hW, hH, hx'.trans_lt hW, hy'.trans_lt hrow⟩⟩
    · rw [Sequencer.index_toNat, Sequencer.index_toNat, hx', hy', Nat.succ_mul]
      show q.y.toNat * q.W.toNat + q.W.toNat + 0 = q.y.toNat * q.W.toNat + q.x.toNat + 1
      omega
    · cases hp.symm.trans h
  · cases hl.symm.trans hlast

/-- The last pixel of the frame ends it (R70). -/
theorem Sequencer.advance_of_isLast {q : Sequencer} (hl : q.isLast = true) : q.advance = Sequencer.idle q.dimBits := by
  rcases q.advance_cases with ⟨h, -⟩ | ⟨h, -⟩ | ⟨-, -, -, e⟩
  · cases hl.symm.trans h
  · cases hl.symm.trans h
  · exact e

theorem Sequencer.advance_phase_of_isLast {q : Sequencer} (hl : q.isLast = true) : q.advance.phase = .idle := by
  rw [Sequencer.advance_of_isLast hl, Sequencer.idle]

/-- A STEP that stays in its frame moves the index on by one (R15). -/
theorem Sequencer.Inv.index_advance {q : Sequencer} (hq : q.Inv) (hp : q.phase = .run) (hr : q.advance.phase = .run) :
    q.advance.index.toNat = q.index.toNat + 1 := by
  cases hl : q.isLast with
  | false =>
    obtain ⟨-, -, -, hidx, -⟩ := Sequencer.advance_inFrame hq hp hl
    exact hidx
  | true => cases (Sequencer.advance_phase_of_isLast hl).symm.trans hr

/-- The last pixel is the one at `(W − 1, H − 1)` (R70). -/
theorem Sequencer.Inv.cursor_of_isLast {q : Sequencer} (hq : q.Inv) (hp : q.phase = .run) (hl : q.isLast = true) :
    q.x.toNat + 1 = q.W.toNat ∧ q.y.toNat + 1 = q.H.toNat := by
  obtain ⟨-, -, hx, hy⟩ := hq.2 hp
  rcases q.advance_cases with ⟨h, -⟩ | ⟨h, -⟩ | ⟨-, hx', hy', -⟩
  · cases hl.symm.trans h
  · cases hl.symm.trans h
  · exact ⟨by omega, by omega⟩

/-- A STEP keeps R17. -/
theorem Sequencer.Inv.advance {q : Sequencer} (hq : q.Inv) (hp : q.phase = .run) : q.advance.Inv := by
  cases hl : q.isLast with
  | false =>
    obtain ⟨-, -, -, -, hinv⟩ := Sequencer.advance_inFrame hq hp hl
    exact hinv
  | true =>
    rw [Sequencer.advance_of_isLast hl]
    exact Sequencer.idle_inv _

/-- In a frame the last pixel is the one of index `W × H − 1` (R15). -/
theorem Sequencer.Inv.isLast_iff {q : Sequencer} (hq : q.Inv) (hp : q.phase = .run) :
    q.isLast = true ↔ q.index.toNat + 1 = q.size := by
  constructor
  · intro hl
    obtain ⟨hx, hy⟩ := hq.cursor_of_isLast hp hl
    rw [Sequencer.index_toNat, Sequencer.size, Nat.add_assoc, hx, ← hy, Nat.mul_comm q.W.toNat, Nat.succ_mul]
  · intro hsize
    cases hl : q.isLast with
    | true => rfl
    | false =>
      obtain ⟨hrun, hW, hH, hidx, hinv⟩ := Sequencer.advance_inFrame hq hp hl
      have hlt := hinv.index_lt_size hrun
      rw [Sequencer.size, hW, hH, hidx] at hlt
      exact absurd hsize hlt.ne

theorem Sequencer.monitor_of_idle {q : Sequencer} (hp : q.phase = .idle) : q.monitor = .idle := by
  rw [Sequencer.monitor, hp]

theorem Sequencer.monitor_of_run {q : Sequencer} (hp : q.phase = .run) : q.monitor = .frame q.size q.index.toNat := by
  rw [Sequencer.monitor, hp]

/-- What a STEP emits takes the trace from where the cursor stood to where it stands (R35, R70). -/
theorem Sequencer.Inv.monitor_advance {q : Sequencer} (hq : q.Inv) (hp : q.phase = .run) (b : BitVec 1) :
    Monitor.run q.monitor (.dot q.index.toNat b :: if q.isLast then [.done] else []) = some q.advance.monitor := by
  rw [Sequencer.monitor_of_run hp]
  cases hl : q.isLast with
  | false =>
    obtain ⟨hrun, hW, hH, hidx, -⟩ := Sequencer.advance_inFrame hq hp hl
    have hne : q.index.toNat + 1 ≠ q.size := fun h => by simp [(hq.isLast_iff hp).2 h] at hl
    have hsize : q.advance.size = q.size := by rw [Sequencer.size, Sequencer.size, hW, hH]
    rw [Sequencer.monitor_of_run hrun, hidx, hsize]
    simp [hne]
  | true =>
    rw [Sequencer.advance_of_isLast hl]
    simp [(hq.isLast_iff hp).1 hl, Sequencer.monitor, Sequencer.idle]

end Sys2Proof.Machine
end

section
/-! The machine's invariant: each part of an edge keeps it, hence so does every step (R17, R18, R21, R32, R35, R36). -/

namespace Sys2Proof.Machine

/-- Splitting a packed pixel word gives the sample back (R43, R46). -/
theorem PixelSample.ofWord_word (p : PixelSample) : PixelSample.ofWord p.word = p := by
  obtain ⟨r, g, b, a⟩ := p
  simp only [PixelSample.ofWord, PixelSample.word, PixelSample.mk.injEq]
  refine ⟨?_, ?_, ?_, ?_⟩ <;>
  · ext k hk
    simp only [BitVec.getElem_extractLsb', BitVec.getLsbD_append]
    grind

/-- A memory that lists the indexes from 0 on takes the next one at its end. -/
theorem Memory.write_next {w : Nat} {m : Memory w} (hm : m.map Prod.fst = List.range m.length) (v : BitVec w) :
    Memory.write m.length v m = m ++ [(m.length, v)] :=
  Memory.write_append _ v m fun _ hk => List.mem_range.1 (hm ▸ hk)

/-- The invariant speaks of the host only in the duty of R97. -/
theorem State.Inv.withHost {s : State} (hs : s.Inv) {h : HostSide} (hd : ∀ d ∈ h.descriptors, d.Fits s.seq.dimBits) :
    (s.withHost h).Inv := by
  obtain ⟨hn, -, hrest⟩ := hs
  exact ⟨hn, hd, hrest⟩

theorem State.Inv.describable {s : State} (hs : s.Inv) : s.describable := by
  obtain ⟨-, hd, -⟩ := hs
  exact hd

theorem State.Inv.tick {s : State} (hs : s.Inv) : s.tick.Inv :=
  hs.withHost hs.describable

theorem State.Inv.accept {s : State} (hs : s.Inv) (b : Beat) : (s.accept b).Inv := by
  cases b with
  | pix w => exact hs.withHost hs.describable
  | desc d => exact hs.withHost fun d' hd' => hs.describable d' (List.mem_of_mem_tail hd')
  | dot b => exact hs

theorem State.Inv.noTransfer {s : State} (hs : s.Inv) : s.noTransfer.Inv := by
  obtain ⟨hn, hd, hq, -, hrest⟩ := hs
  exact ⟨hn, hd, hq, fun h => (nomatch h), hrest⟩

/-- The state after reset, whatever descriptors that fit it the host offers. -/
theorem State.resetAt_withHost_inv {n : Nat} (hn : 1 ≤ n) {h : HostSide} (hd : ∀ d ∈ h.descriptors, d.Fits n) :
    ((State.resetAt n).withHost h).Inv :=
  ⟨hn, hd, Sequencer.idle_inv n, fun h => (nomatch h), rfl, fun h => (nomatch h), rfl, rfl, rfl⟩

theorem State.Inv.applyReset {s : State} (hs : s.Inv) : s.applyReset.Inv :=
  State.resetAt_withHost_inv hs.1 hs.describable

/-- An accepted descriptor opens new spaces, and leaves the trace at the first dot of its frame or between frames. -/
theorem State.Inv.startFrame {s : State} (hs : s.Inv) (hp : s.seq.phase = .idle) {w h : Nat}
    (hf : Descriptor.Fits s.seq.dimBits ⟨w, h⟩) : (s.startFrame w h).Inv := by
  obtain ⟨hn, hd, hq, -, -, -, -, hmon, -⟩ := hs
  rw [Sequencer.monitor_of_idle hp] at hmon
  rcases s.startFrame_cases w h with ⟨hempty, e⟩ | ⟨⟨hw, hh⟩, e⟩
  · rw [e]
    refine ⟨hn, hd, hq, fun _ => hp, rfl, fun hr => ?_, rfl, ?_, ?_⟩
    · cases hp.symm.trans hr
    · simp [hmon, hempty, Sequencer.monitor_of_idle hp]
    · simp
  · rw [e]
    refine ⟨hn, hd, Sequencer.launch_inv hf hw hh, fun h => (nomatch h), rfl, fun _ => ?_, rfl, ?_, ?_⟩
    · exact (Sequencer.launch_index _ w h).symm
    · simp [hmon, hw, hh, Sequencer.launch_monitor hf]
    · simp

/-- In RUN, GRID takes the element at the cursor at its end (R32). -/
theorem State.Inv.write_grid {s : State} (hs : s.Inv) (hp : s.seq.phase = .run) (v : PixWord) :
    Memory.write s.seq.index.toNat v s.grid = s.grid ++ [(s.seq.index.toNat, v)] := by
  obtain ⟨-, -, -, -, hgrid, hlen, -⟩ := hs
  rw [← hlen hp, Memory.write_next hgrid]

/-- In RUN, BUF takes the bit at the cursor at its end (R36). -/
theorem State.Inv.write_buf {s : State} (hs : s.Inv) (hp : s.seq.phase = .run) (b : BitVec 1) :
    Memory.write s.seq.index.toNat b s.buf = s.buf ++ [(s.seq.index.toNat, b)] := by
  obtain ⟨-, -, -, -, hgrid, hlen, hbuf, -⟩ := hs
  have hlen' : s.buf.length = s.seq.index.toNat := by rw [hbuf, List.length_map, hlen hp]
  have hfst : s.buf.map Prod.fst = List.range s.buf.length := by
    rw [hbuf, List.map_map, List.length_map]
    exact hgrid
  rw [← hlen', Memory.write_next hfst]

/-- In RUN, the writes of a STEP at the cursor append the next element to both spaces, the bit being its own sample's, and take
trace and cursor on together. -/
theorem State.Inv.convert {s : State} (hs : s.Inv) (hp : s.seq.phase = .run) (p : PixelSample) :
    (s.convert s.seq.index.toNat p).Inv := by
  have hwg := hs.write_grid hp p.word
  have hwb := hs.write_buf hp (pixelBit p)
  obtain ⟨hn, hd, hq, -, hgrid, hlen, hbuf, hmon, hdots⟩ := hs
  rw [State.convert_eq, hwg, hwb]
  refine ⟨?_, ?_, hq.advance hp, Sequencer.advance_phase_of_isLast, ?_, fun hr => ?_, ?_, ?_, ?_⟩
  · rwa [Sequencer.advance_dimBits]
  · intro d hmem
    rw [Sequencer.advance_dimBits]
    exact hd d hmem
  · simp [hgrid, hlen hp, List.range_succ]
  · simp [hlen hp, hq.index_advance hp hr]
  · simp [hbuf, PixelSample.ofWord_word]
  · simp [hmon, hq.monitor_advance hp, -Monitor.run_cons]
  · rw [hdots, frameDots_append, frameDots_dot]
    cases s.seq.isLast <;> rfl

/-- Settles O37: a step is a reset, a START, a STEP or a quiet edge, after the edge and the offer are used up. -/
theorem everyStepKeepsTheInvariant : Obligations.EveryStepKeepsTheInvariant := by
  intro s t hs h
  rcases step_cases h with ⟨-, rfl⟩ | ⟨d, -, hp, -, -, hf, rfl⟩ | ⟨w, -, hp, -, -, -, rfl⟩ | ⟨-, -, rfl⟩
  · exact hs.tick.applyReset
  · exact (hs.tick.accept (.desc d)).startFrame hp hf
  · exact (hs.tick.accept (.pix w)).convert hp _
  · exact hs.tick.noTransfer

/-- Settles O36: after reset the host offers nothing. -/
theorem invariantAtReset : Obligations.InvariantAtReset :=
  have hreset (n : Nat) (hn : 1 ≤ n) : (State.resetAt n).Inv :=
    State.resetAt_withHost_inv (h := .quiet) hn fun _ hd => (nomatch hd)
  ⟨hreset, hreset _ (by decide)⟩

end Sys2Proof.Machine
end

section
/-! The sequencer over operations and steps: what START and STEP keep, everything keeps (R15, R17). -/

namespace Sys2Proof.Machine

/-- Settles O33: `advance_inFrame` and `advance_of_isLast`, told apart by the index. -/
theorem cursorWalksRowMajor : Obligations.CursorWalksRowMajor := by
  intro q hq
  refine ⟨fun hp => ?_, fun hp => ?_⟩
  · obtain ⟨-, -, hx, hy⟩ := hq.1 hp
    exact ⟨hx, hy⟩
  · obtain ⟨hW, -, hx, -⟩ := hq.2 hp
    have hidx := q.index_toNat
    refine ⟨hidx, hq.index_lt_size hp, ?_, ?_, fun hlt => ?_, fun hend => ?_⟩
    · rw [hidx, Nat.mul_add_mod_of_lt hx]
    · rw [hidx, Nat.mul_comm, Nat.mul_add_div hW, Nat.div_eq_of_lt hx, Nat.add_zero]
    · have hl : q.isLast = false :=
        Bool.eq_false_iff.2 fun hl => hlt.ne ((hq.isLast_iff hp).1 hl)
      obtain ⟨hrun, hW', hH', hidx', hinv⟩ := Sequencer.advance_inFrame hq hp hl
      exact ⟨hrun, q.advance_dimBits, hW', hH', hidx', hinv⟩
    · have hl : q.isLast = true := (hq.isLast_iff hp).2 hend
      obtain ⟨hx', hy'⟩ := hq.cursor_of_isLast hp hl
      exact ⟨Nat.eq_sub_of_add_eq hx', Nat.eq_sub_of_add_eq hy', Sequencer.advance_of_isLast hl⟩

theorem execLdpix_seq {p : PixelSample} {s t : State} (h : execLdpix p s = .next t) : t.seq = s.seq := by
  rcases State.atCursor_eq_next h with ⟨-, rfl⟩ | ⟨-, -, rfl⟩ <;> rfl

theorem execStbit_seq {dot : BitVec 1} {s t : State} (h : execStbit dot s = .next t) : t.seq = s.seq := by
  rcases State.atCursor_eq_next h with ⟨-, rfl⟩ | ⟨-, -, rfl⟩ <;> rfl

/-- START keeps the sequencer, opens a frame, or waits. -/
theorem execStart_seq {w h : Nat} {s t : State} (hs : execStart w h s = .next t) :
    t.seq = s.seq ∨ (w ≠ 0 ∧ h ≠ 0 ∧ Descriptor.Fits s.seq.dimBits ⟨w, h⟩ ∧ t.seq = .launch s.seq.dimBits w h) := by
  rcases execStart_cases w h s with ⟨-, e⟩ | ⟨-, hf, e⟩ | ⟨-, -, e⟩ <;> rw [e] at hs <;> cases hs
  · exact .inl rfl
  · rcases s.startFrame_cases w h with ⟨-, e⟩ | ⟨⟨hw, hh⟩, e⟩ <;> rw [e]
    · exact .inl rfl
    · exact .inr ⟨hw, hh, hf, rfl⟩

theorem execStart_seqInv {w h : Nat} {s t : State} (hq : s.seq.Inv) (hs : execStart w h s = .next t) : t.seq.Inv := by
  rcases execStart_seq hs with e | ⟨hw, hh, hf, e⟩ <;> rw [e]
  · exact hq
  · exact Sequencer.launch_inv hf hw hh

theorem execStep_seqInv {p : PixelSample} {s t : State} (hq : s.seq.Inv) (h : execStep p s = .next t) : t.seq.Inv := by
  rcases State.atCursor_eq_next h with ⟨-, rfl⟩ | ⟨hp, -, rfl⟩
  · exact hq
  · rw [State.convert_seq]
    exact hq.advance hp

theorem runSamples_seqInv {ps : List PixelSample} {s t : State} (hq : s.seq.Inv) (h : runSamples ps s = .next t) :
    t.seq.Inv := by
  induction ps generalizing s with
  | nil =>
    cases h
    exact hq
  | cons p ps ih =>
    unfold runSamples at h
    split at h
    · cases h
      exact hq
    · obtain ⟨u, hstep, hrest⟩ := andThen_eq_next h
      exact ih (execStep_seqInv hq hstep) hrest

theorem execRasterize_seqInv {g : PixelGrid} {s t : State} (hq : s.seq.Inv) (h : execRasterize g s = .next t) :
    t.seq.Inv := by
  unfold execRasterize at h
  split at h
  · obtain ⟨u, hstart, hrun⟩ := andThen_eq_next h
    exact runSamples_seqInv (execStart_seqInv hq hstart) hrun
  · cases h
    exact hq

/-- Every operation keeps R17: the datapath operations, LDPIX and STBIT leave the sequencer as it was. -/
theorem exec_seqInv {i : Instr} {s t : State} (hq : s.seq.Inv) (h : exec i s = .next t) : t.seq.Inv := by
  cases i with
  | sum3 p | div3 p | luma p | thresh p | inv p | ashamt p | shmux p | ainv p | pixel p =>
    cases h
    exact hq
  | ldpix p => rwa [execLdpix_seq h]
  | stbit dot => rwa [execStbit_seq h]
  | step p => exact execStep_seqInv hq h
  | start w h' => exact execStart_seqInv hq h
  | rasterize g => exact execRasterize_seqInv hq h

/-- Every port's beat decodes to a well-formed instruction: none is a RASTERIZE (R49). -/
theorem decodeBeat_wellFormed (b : Beat) : (decodeBeat b).WellFormed := by
  cases b <;> rfl

/-- Without a reset, the transfer of the edge is executed (R83). -/
theorem step_of_transfer {s : State} {b : Beat} (hr : s.edge.rst = false) (htr : s.transfer = some b) :
    step s = exec (decodeBeat b) (s.tick.accept b) := by
  rw [step, hr, htr, if_neg Bool.false_ne_true]

/-- Without a transfer, nothing but `done` changes (R70). -/
theorem step_of_no_transfer {s : State} (hr : s.edge.rst = false) (htr : s.transfer = none) :
    step s = .next s.tick.noTransfer := by
  rw [step, hr, htr, if_neg Bool.false_ne_true]

/-- A step is a reset, a quiet edge, or an operation on a state with the same sequencer. -/
theorem step_seqInv {s t : State} (hq : s.seq.Inv) (h : step s = .next t) : t.seq.Inv := by
  cases hr : s.edge.rst with
  | true =>
    rw [step, hr, if_pos rfl] at h
    cases h
    exact Sequencer.idle_inv _
  | false =>
    cases htr : s.transfer with
    | none =>
      rw [step_of_no_transfer hr htr] at h
      cases h
      exact hq
    | some b =>
      rw [step_of_transfer hr htr] at h
      exact exec_seqInv (by rwa [State.accept_seq, State.tick_seq]) h

/-- Settles O34: R17 at reset, over operations and steps, and the one IDLE state. -/
theorem sequencerInvariantsPreserved : Obligations.SequencerInvariantsPreserved :=
  ⟨Sequencer.idle_inv, fun _ _ _ => exec_seqInv, fun _ _ => step_seqInv, fun _ => Sequencer.Inv.eq_idle⟩

/-- Settles O26: `step_of_transfer`, on an instruction that is well formed. -/
theorem stepRunsTheDecodedBeat : Obligations.StepRunsTheDecodedBeat :=
  fun _ b hr htr => ⟨decodeBeat_wellFormed b, step_of_transfer hr htr⟩

end Sys2Proof.Machine
end

section
/-! The ports and the edge: the equations of R18, R20 and R24, and that an edge looks at the sequencer and the host's side
alone (R23). -/

namespace Sys2Proof.Machine

theorem State.startReady_iff (s : State) : s.startReady = true ↔ s.seq.phase = .idle := beq_iff_eq

theorem State.busy_iff (s : State) : s.busy = true ↔ s.seq.phase = .run := beq_iff_eq

theorem State.pixReady_iff (s : State) : s.pixReady = true ↔ s.seq.phase = .run ∧ s.dotReady = true := by
  rw [State.pixReady, Bool.and_eq_true, beq_iff_eq]

theorem State.dotValid_iff (s : State) : s.dotValid = true ↔ s.seq.phase = .run ∧ s.pixValid = true := by
  rw [State.dotValid, Bool.and_eq_true, beq_iff_eq]

/-- A pixel word transfers in RUN, offered and with the consumer ready. -/
theorem State.pixTransfer_iff (s : State) :
    (s.pixValid && s.pixReady) = true ↔ s.seq.phase = .run ∧ s.pixValid = true ∧ s.dotReady = true := by
  rw [Bool.and_eq_true, State.pixReady_iff, and_left_comm]

theorem State.dotTransfer_iff (s : State) :
    (s.dotValid && s.dotReady) = true ↔ s.seq.phase = .run ∧ s.pixValid = true ∧ s.dotReady = true := by
  rw [Bool.and_eq_true, State.dotValid_iff, and_assoc]

/-- `pix_valid` is 1 only for a word the host holds. -/
theorem State.pixels_of_pixValid {s : State} (h : s.pixValid = true) : ∃ w ws, s.host.pixels = w :: ws := by
  cases hw : s.host.pixels with
  | nil => simp [State.pixValid, hw] at h
  | cons w ws => exact ⟨w, ws, rfl⟩

/-- Settles O27: both transfers of R20 reduce to the same condition, and START's phase is not STEP's. -/
theorem handshakeEquations : Obligations.HandshakeEquations := by
  intro s
  refine ⟨s.startReady_iff, s.busy_iff, s.pixReady_iff, s.dotValid_iff, ?_, s.pixTransfer_iff, ?_, fun hv => ?_, fun hv => ?_⟩
  · rw [Bool.eq_iff_iff, s.pixTransfer_iff, s.dotTransfer_iff]
  · rintro ⟨hstart, hpix⟩
    have hidle := s.startReady_iff.1 (Bool.and_eq_true_iff.1 hstart).2
    have hrun := (s.pixTransfer_iff.1 hpix).1
    cases hidle.symm.trans hrun
  · obtain ⟨w, ws, hw⟩ := State.pixels_of_pixValid (s.dotValid_iff.1 hv).2
    exact ⟨w, ws, hw, by rw [State.dot, if_pos hv, hw]; rfl⟩
  · rw [State.dot, hv, if_neg Bool.false_ne_true]

/-- Settles O29. -/
theorem resetStateValues : Obligations.ResetStateValues :=
  fun _ => ⟨rfl, rfl, rfl, rfl, rfl, rfl, rfl, rfl, fun _ => rfl, fun _ => rfl⟩

/-- What an accepted descriptor emits. -/
theorem State.startFrame_trace (s : State) (w h : Nat) :
    (s.startFrame w h).trace = s.trace ++ .start w h :: if w = 0 ∨ h = 0 then [.done] else [] := by
  rcases s.startFrame_cases w h with ⟨he, e⟩ | ⟨hne, e⟩
  · simp [e, he]
  · simp [e, hne]

theorem State.startFrame_done (s : State) (w h : Nat) : (s.startFrame w h).done = decide (w = 0 ∨ h = 0) := by
  rcases s.startFrame_cases w h with ⟨he, e⟩ | ⟨hne, e⟩
  · simp [e, he]
  · simp [e, hne]

/-- Settles O28: of an edge's events START and DOT are not `DONE`, which closes an empty frame or follows the last dot. -/
theorem donePulsesWithTheDoneEvent : Obligations.DonePulsesWithTheDoneEvent := by
  intro s t h
  rcases step_cases h with ⟨hr, rfl⟩ | ⟨d, hr, -, -, -, -, rfl⟩ | ⟨w, hr, -, -, -, -, rfl⟩ | ⟨hr, -, rfl⟩
  · exact ⟨fun _ => rfl, fun hr' => (nomatch hr.symm.trans hr')⟩
  · refine ⟨fun hr' => (nomatch hr.symm.trans hr'), fun _ => ⟨_, State.startFrame_trace _ _ _, ?_⟩⟩
    rw [State.startFrame_done]
    split <;> simp [*]
  · refine ⟨fun hr' => (nomatch hr.symm.trans hr'), fun _ => ⟨_, State.convert_trace _ _ _, ?_⟩⟩
    rw [State.convert_done, State.accept_seq, State.tick_seq]
    cases s.seq.isLast <;> simp
  · exact ⟨fun _ => rfl, fun _ => ⟨[], (List.append_nil _).symm, by simp⟩⟩

/-- The state after a step that answers one, as a function: the operations of the two ports written out. -/
def State.afterEdge (s : State) : State :=
  if s.edge.rst then s.tick.applyReset
  else
    match s.transfer with
    | some (.desc d) => (s.tick.accept (.desc d)).startFrame d.cfgW d.cfgH
    | some (.pix w) => (s.tick.accept (.pix w)).convert s.seq.index.toNat (PixelSample.ofWord w)
    | _ => s.tick.noTransfer

theorem step_eq_afterEdge {s t : State} (h : step s = .next t) : t = s.afterEdge := by
  unfold State.afterEdge
  rcases step_cases h with ⟨hr, rfl⟩ | ⟨d, hr, -, -, htr, -, rfl⟩ | ⟨w, hr, -, -, htr, -, rfl⟩ | ⟨hr, htr, rfl⟩
  · rw [if_pos hr]
  all_goals rw [hr, if_neg Bool.false_ne_true, htr]

/-- Two edges, `s` to `t` and `s'` to `t'`, with the same outcome: registers, host and events emitted. -/
def SameEffect (s t s' t' : State) : Prop :=
  t.seq = t'.seq ∧ t.done = t'.done ∧ t.host = t'.host ∧ ∃ es, t.trace = s.trace ++ es ∧ t'.trace = s'.trace ++ es

theorem State.edge_congr {s s' : State} (hhost : s.host = s'.host) : s.edge = s'.edge := by
  rw [State.edge, State.edge, hhost]

theorem State.tick_host_congr {s s' : State} (hhost : s.host = s'.host) : s.tick.host = s'.tick.host := by
  rw [State.tick_host, State.tick_host, hhost]

section
variable {s s' : State} (hseq : s.seq = s'.seq) (hhost : s.host = s'.host)
include hseq hhost

theorem SameEffect.startFrame (w h : Nat) : SameEffect s (s.startFrame w h) s' (s'.startFrame w h) := by
  refine ⟨?_, ?_, ?_, _, s.startFrame_trace w h, s'.startFrame_trace w h⟩
  · simp only [State.startFrame, hseq]
    split <;> simp [hseq]
  · rw [State.startFrame_done, State.startFrame_done]
  · simp only [State.startFrame]
    split <;> exact hhost

theorem SameEffect.convert (i : Nat) (p : PixelSample) : SameEffect s (s.convert i p) s' (s'.convert i p) := by
  refine ⟨?_, ?_, ?_, _, s.convert_trace i p, ?_⟩
  · rw [State.convert_seq, State.convert_seq, hseq]
  · rw [State.convert_done, State.convert_done, hseq]
  · rw [State.convert_host, State.convert_host, hhost]
  · rw [State.convert_trace, hseq]

theorem SameEffect.noTransfer : SameEffect s s.noTransfer s' s'.noTransfer :=
  ⟨hseq, rfl, hhost, [], (List.append_nil _).symm, (List.append_nil _).symm⟩

theorem State.transfer_congr : s.transfer = s'.transfer := by
  cases s
  cases s'
  subst hseq hhost
  rfl

theorem State.accept_tick_congr (b : Beat) : (s.tick.accept b).seq = (s'.tick.accept b).seq ∧
    (s.tick.accept b).host = (s'.tick.accept b).host := by
  cases b <;> exact ⟨hseq, by simp [State.accept, hhost]⟩

/-- Which operation the edge runs, and on what word, is a matter of the sequencer and the host's side (R20). -/
theorem SameEffect.afterEdge (hr : s.edge.rst = false) : SameEffect s s.afterEdge s' s'.afterEdge := by
  unfold State.afterEdge
  rw [← State.edge_congr hhost, ← State.transfer_congr hseq hhost, hr, if_neg Bool.false_ne_true, if_neg Bool.false_ne_true]
  split
  case h_1 d _ =>
    obtain ⟨hs, hh⟩ := State.accept_tick_congr hseq hhost (.desc d)
    exact SameEffect.startFrame hs hh _ _
  case h_2 w _ =>
    obtain ⟨hs, hh⟩ := State.accept_tick_congr hseq hhost (.pix w)
    rw [← hseq]
    exact SameEffect.convert hs hh _ _
  case h_3 => exact SameEffect.noTransfer (s := s.tick) hseq (State.tick_host_congr hhost)

end

/-- Settles O32: `afterEdge` has the same effect on states with the same sequencer and host. -/
theorem noHiddenState : Obligations.NoHiddenState := by
  intro s s' t t' hseq hhost h h'
  obtain rfl := step_eq_afterEdge h
  obtain rfl := step_eq_afterEdge h'
  cases hr : s.edge.rst with
  | false =>
    obtain ⟨hs, hd, hh, hes⟩ := SameEffect.afterEdge hseq hhost hr
    exact ⟨hs, hd, hh, fun _ => hes⟩
  | true =>
    have hr' : s'.edge.rst = true := State.edge_congr hhost ▸ hr
    rw [State.afterEdge, if_pos hr, State.afterEdge, if_pos hr']
    refine ⟨?_, rfl, State.tick_host_congr hhost, fun hf => (nomatch hf)⟩
    rw [State.applyReset_seq, State.applyReset_seq, State.tick_seq, State.tick_seq, hseq]

end Sys2Proof.Machine
end

section
/-! The datapath's frame, the wires' record as a thing no operation reads, and what a consumer reads of BUF (R14, R24, R36). -/

namespace Sys2Proof.Machine

/-- Each of the nine datapath operations replaces the wires' record and nothing else (R14, R65). -/
theorem datapath_next {p : PixelSample} {s t : State} {i : Instr}
    (hi : i ∈ [.sum3 p, .div3 p, .luma p, .thresh p, .inv p, .ashamt p, .shmux p, .ainv p, .pixel p])
    (h : exec i s = .next t) : ∃ w, t = s.withWires w := by
  simp only [List.mem_cons, List.not_mem_nil, or_false] at hi
  rcases hi with rfl | rfl | rfl | rfl | rfl | rfl | rfl | rfl | rfl <;>
  · cases h
    exact ⟨_, rfl⟩

/-- Settles O15: a state with only the record replaced has every other field as it was. -/
theorem datapathFrame : Obligations.DatapathFrame := by
  intro p s t i hi h
  obtain ⟨w, rfl⟩ := datapath_next hi h
  exact ⟨rfl, rfl, rfl, rfl, fun _ => rfl, fun _ => rfl⟩

/-! ### The wires' record -/

theorem drivenOrKept.trans {α : Type} {a b c a' b' c' : Option α} (h : drivenOrKept a b a' b')
    (h' : drivenOrKept b c b' c') : drivenOrKept a c a' c' := by
  rcases h' with rfl | ⟨rfl, rfl⟩
  · exact .inl rfl
  · exact h

theorem Wires.DrivenOrKept.refl (a a' : Wires) : Wires.DrivenOrKept a a a' a' := by
  simp [Wires.DrivenOrKept, drivenOrKept]

theorem Wires.DrivenOrKept.trans {a b c a' b' c' : Wires} (h : Wires.DrivenOrKept a b a' b')
    (h' : Wires.DrivenOrKept b c b' c') : Wires.DrivenOrKept a c a' c' := by
  obtain ⟨h1, h2, h3, h4, h5, h6, h7, h8, h9, h10⟩ := h
  obtain ⟨k1, k2, k3, k4, k5, k6, k7, k8, k9, k10⟩ := h'
  exact ⟨h1.trans k1, h2.trans k2, h3.trans k3, h4.trans k4, h5.trans k5, h6.trans k6, h7.trans k7, h8.trans k8, h9.trans k9,
    h10.trans k10⟩

/-- An update of the record that looks at nothing in it. -/
def Wires.Blind (g : Wires → Wires) : Prop :=
  ∀ a a', Wires.DrivenOrKept a (g a) a' (g a')

theorem Wires.Blind.comp {f g : Wires → Wires} (hg : Wires.Blind g) (hf : Wires.Blind f) : Wires.Blind fun a => g (f a) :=
  fun a a' => (hf a a').trans (hg (f a) (f a'))

section
variable (p : PixelSample)

theorem Wires.load_blind : Wires.Blind (Wires.load p) := fun _ _ => by
  simp [Wires.load, Wires.DrivenOrKept, drivenOrKept]

theorem Wires.sum3_blind : Wires.Blind (Wires.sum3 p) := fun _ _ => by
  simp [Wires.sum3, Wires.DrivenOrKept, drivenOrKept]

theorem Wires.div3_blind : Wires.Blind (Wires.div3 p) := fun _ _ => by
  simp [Wires.div3, Wires.DrivenOrKept, drivenOrKept]

theorem Wires.thresh_blind : Wires.Blind (Wires.thresh p) := fun _ _ => by
  simp [Wires.thresh, Wires.DrivenOrKept, drivenOrKept]

theorem Wires.inv_blind : Wires.Blind (Wires.inv p) := fun _ _ => by
  simp [Wires.inv, Wires.DrivenOrKept, drivenOrKept]

theorem Wires.ashamt_blind : Wires.Blind (Wires.ashamt p) := fun _ _ => by
  simp [Wires.ashamt, Wires.DrivenOrKept, drivenOrKept]

theorem Wires.shmux_blind : Wires.Blind (Wires.shmux p) := fun _ _ => by
  simp [Wires.shmux, Wires.DrivenOrKept, drivenOrKept]

theorem Wires.luma_blind : Wires.Blind (Wires.luma p) := (Wires.div3_blind p).comp (Wires.sum3_blind p)

theorem Wires.ainv_blind : Wires.Blind (Wires.ainv p) :=
  (Wires.shmux_blind p).comp ((Wires.ashamt_blind p).comp (Wires.inv_blind p))

theorem Wires.pixel_blind : Wires.Blind (Wires.pixel p) :=
  (Wires.ainv_blind p).comp ((Wires.thresh_blind p).comp ((Wires.luma_blind p).comp (Wires.load_blind p)))

end

/-- An operation that never reads the wires' record: what it answers with another record `w` in place, it answers without it,
the same outside the record, each wire driven alike or kept. -/
def WiresBlind (f : State → Host.Outcome State Fault Refusal) : Prop :=
  ∀ (s t' : State) (w : Wires), f (s.withWires w) = .next t' →
    ∃ t, f s = .next t ∧ t' = t.withWires t'.wires ∧ Wires.DrivenOrKept s.wires t.wires w t'.wires

/-- An update of the state that carries a record in its place along, updated by a blind `g`. -/
theorem WiresBlind.of_update {f : State → State} {g : Wires → Wires} (hg : Wires.Blind g)
    (hwires : ∀ s, (f s).wires = g s.wires) (hf : ∀ s w, f (s.withWires w) = (f s).withWires (g w)) :
    WiresBlind fun s => .next (f s) := by
  rintro s _ w ⟨⟩
  refine ⟨f s, rfl, ?_, ?_⟩
  · rw [hf, State.withWires_wires]
  · rw [hf, hwires, State.withWires_wires]
    exact hg _ _

theorem WiresBlind.of_wires {g : Wires → Wires} (hg : Wires.Blind g) :
    WiresBlind fun s => .next (s.withWires (g s.wires)) :=
  .of_update hg (fun _ => rfl) fun _ _ => rfl

/-- An update that leaves the record alone. -/
theorem WiresBlind.of_kept {f : State → State} (hwires : ∀ s, (f s).wires = s.wires)
    (hf : ∀ s w, f (s.withWires w) = (f s).withWires w) : WiresBlind fun s => .next (f s) :=
  .of_update (g := id) Wires.DrivenOrKept.refl hwires hf

theorem noTransfer_wiresBlind : WiresBlind fun s => .next s.noTransfer :=
  .of_kept (fun _ => rfl) fun _ _ => rfl

/-- One blind operation after another. -/
theorem WiresBlind.andThen {f g : State → Host.Outcome State Fault Refusal} (hf : WiresBlind f) (hg : WiresBlind g) :
    WiresBlind fun s => Machine.andThen (f s) g := by
  intro s t' w h
  obtain ⟨u', hfu', hgu'⟩ := andThen_eq_next h
  obtain ⟨u, hfu, hu', hw⟩ := hf s u' w hfu'
  rw [hu'] at hgu'
  obtain ⟨t, hgu, ht', hw'⟩ := hg u t' u'.wires hgu'
  exact ⟨t, by simp only [hfu, andThen_next, hgu], ht', hw.trans hw'⟩

/-- An operation that stops is blind. -/
theorem fault_wiresBlind (r : Fault) : WiresBlind fun _ => .fault r := fun _ _ _ h => (nomatch h)

theorem refused_wiresBlind (r : Refusal) : WiresBlind fun _ => .refused r := fun _ _ _ h => (nomatch h)

/-- The sequencer, which chooses what an operation does, is outside the record: it is enough that for each value of it the
operation does something blind. -/
theorem WiresBlind.of_seq {f : State → Host.Outcome State Fault Refusal}
    (h : ∀ q, ∃ g, WiresBlind g ∧ ∀ s, s.seq = q → f s = g s) : WiresBlind f := by
  intro s t' w hf
  obtain ⟨g, hg, e⟩ := h s.seq
  rw [e s rfl]
  exact hg s t' w (by rw [← e (s.withWires w) rfl, hf])

/-- The access at the cursor is blind if what waits and what acts are. -/
theorem WiresBlind.atCursor {waiting : State → State} {access : State → Nat → State}
    (hwait : WiresBlind fun s => .next (waiting s)) (hacc : ∀ i, WiresBlind fun s => .next (access s i)) :
    WiresBlind fun s => s.atCursor (waiting s) (access s) := by
  refine .of_seq fun q => ?_
  cases hp : q.phase with
  | idle => exact ⟨_, hwait, by rintro s rfl; simp only [State.atCursor, hp]⟩
  | run =>
    by_cases hi : q.index.toNat < q.size
    · exact ⟨_, hacc q.index.toNat, by rintro s rfl; simp only [State.atCursor, hp, if_pos hi]⟩
    · exact ⟨_, fault_wiresBlind (.outsideFrame q.index.toNat), by
        rintro s rfl; simp only [State.atCursor, hp, if_neg hi]⟩

theorem execLdpix_wiresBlind (p : PixelSample) : WiresBlind (execLdpix p) :=
  .atCursor (waiting := id) (.of_kept (fun _ => rfl) fun _ _ => rfl) fun _ =>
    .of_update (Wires.load_blind p) (fun _ => rfl) fun _ _ => rfl

theorem execStbit_wiresBlind (dot : BitVec 1) : WiresBlind (execStbit dot) :=
  .atCursor (waiting := id) (.of_kept (fun _ => rfl) fun _ _ => rfl) fun _ => .of_kept (fun _ => rfl) fun _ _ => rfl

theorem execStep_wiresBlind (p : PixelSample) : WiresBlind (execStep p) :=
  .atCursor noTransfer_wiresBlind fun i =>
    .of_update (Wires.pixel_blind p) (fun s => s.convert_wires i p) fun s w => by
      rw [State.convert_eq, State.convert_eq]
      rfl

theorem startFrame_wiresBlind (w h : Nat) : WiresBlind fun s => .next (s.startFrame w h) := by
  refine .of_kept (fun s => ?_) fun s a => ?_ <;>
  · unfold State.startFrame
    split <;> rfl

theorem execStart_wiresBlind (w h : Nat) : WiresBlind (execStart w h) := by
  refine .of_seq fun q => ?_
  cases hp : q.phase with
  | run => exact ⟨_, noTransfer_wiresBlind, by rintro s rfl; simp only [execStart, hp]⟩
  | idle =>
    by_cases hf : Descriptor.Fits q.dimBits ⟨w, h⟩
    · exact ⟨_, startFrame_wiresBlind w h, by rintro s rfl; simp only [execStart, hp, if_pos hf]⟩
    · exact ⟨_, refused_wiresBlind (.notDescribable w h), by rintro s rfl; simp only [execStart, hp, if_neg hf]⟩

theorem runSamples_wiresBlind (ps : List PixelSample) : WiresBlind (runSamples ps) := by
  induction ps with
  | nil => exact .of_kept (f := id) (fun _ => rfl) fun _ _ => rfl
  | cons p ps ih =>
    refine .of_seq fun q => ?_
    cases hp : q.phase with
    | idle =>
      exact ⟨fun s => .next (s.returnWords (p :: ps)), .of_kept (fun _ => rfl) fun _ _ => rfl, by
        rintro s rfl; simp only [runSamples, hp]⟩
    | run => exact ⟨_, (execStep_wiresBlind p).andThen ih, by rintro s rfl; simp only [runSamples, hp]⟩

theorem execRasterize_wiresBlind (g : PixelGrid) : WiresBlind (execRasterize g) := by
  refine .of_seq fun q => ?_
  cases hp : q.phase with
  | idle =>
    exact ⟨_, (execStart_wiresBlind g.width g.height).andThen (runSamples_wiresBlind g.samples), by
      rintro s rfl; simp only [execRasterize, hp]⟩
  | run => exact ⟨_, noTransfer_wiresBlind, by rintro s rfl; simp only [execRasterize, hp]⟩

theorem exec_wiresBlind (i : Instr) : WiresBlind (exec i) := by
  cases i with
  | sum3 p => exact .of_wires (Wires.sum3_blind p)
  | div3 p => exact .of_wires (Wires.div3_blind p)
  | luma p => exact .of_wires (Wires.luma_blind p)
  | thresh p => exact .of_wires (Wires.thresh_blind p)
  | inv p => exact .of_wires (Wires.inv_blind p)
  | ashamt p => exact .of_wires (Wires.ashamt_blind p)
  | shmux p => exact .of_wires (Wires.shmux_blind p)
  | ainv p => exact .of_wires (Wires.ainv_blind p)
  | pixel p => exact .of_wires (Wires.pixel_blind p)
  | ldpix p => exact execLdpix_wiresBlind p
  | stbit dot => exact execStbit_wiresBlind dot
  | step p => exact execStep_wiresBlind p
  | start w h => exact execStart_wiresBlind w h
  | rasterize g => exact execRasterize_wiresBlind g

/-- Settles O16: every operation is blind to the record. -/
theorem wiresRecordIsNeverRead : Obligations.WiresRecordIsNeverRead := exec_wiresBlind

/-! ### What a consumer reads -/

theorem State.bufRead_of_some {s : State} {i : Nat} {b : BitVec 1} (h : Memory.read s.buf i = some b) :
    s.bufRead i = .ok b := by
  rw [State.bufRead, h]

theorem State.bufRead_of_none {s : State} {i : Nat} (h : Memory.read s.buf i = none) :
    s.bufRead i = .error (.unwrittenDot i) := by
  rw [State.bufRead, h]

/-- A read finds a value exactly at a listed index. -/
theorem Memory.read_eq_none_iff {w : Nat} (m : Memory w) (i : Nat) : Memory.read m i = none ↔ i ∉ m.map Prod.fst := by
  induction m with
  | nil => simp
  | cons c m ih =>
    obtain ⟨j, u⟩ := c
    rw [Memory.read_cons, List.map_cons, List.mem_cons, not_or, ← ih]
    split <;> simp [*]

/-- A read of a converted memory converts what is read. -/
theorem Memory.read_map {v w : Nat} (f : BitVec v → BitVec w) (m : Memory v) (i : Nat) :
    Memory.read (m.map fun c => (c.1, f c.2)) i = (Memory.read m i).map f := by
  induction m with
  | nil => rfl
  | cons c m ih =>
    obtain ⟨j, u⟩ := c
    rw [List.map_cons, Memory.read_cons, Memory.read_cons, ih]
    split <;> rfl

/-- After a store, the stored index reads the bit and every other index as before (R28). -/
theorem State.storeBit_bufRead (s : State) (i : Nat) (b : BitVec 1) (j : Nat) :
    (s.storeBit i b).bufRead j = if j = i then .ok b else s.bufRead j := by
  by_cases hj : j = i
  · rw [if_pos hj, State.bufRead_of_some (by rw [State.storeBit_buf, Memory.read_write, if_pos hj])]
  · rw [if_neg hj]
    simp only [State.bufRead, State.storeBit_buf, Memory.read_write, if_neg hj]

/-- Under the invariant BUF reads the conversion of GRID, index by index (R36). -/
theorem State.Inv.read_buf {s : State} (hs : s.Inv) (i : Nat) :
    Memory.read s.buf i = (s.gridRead i).map fun w => pixelBit (PixelSample.ofWord w) := by
  obtain ⟨-, -, -, -, -, -, hbuf, -⟩ := hs
  rw [hbuf, Memory.read_map fun w => pixelBit (PixelSample.ofWord w), State.gridRead]

/-- In RUN, GRID has a value at the indexes below the cursor alone (R32). -/
theorem State.Inv.gridRead_eq_none_iff {s : State} (hs : s.Inv) (hp : s.seq.phase = .run) (i : Nat) :
    s.gridRead i = none ↔ s.seq.index.toNat ≤ i := by
  obtain ⟨-, -, -, -, hgrid, hlen, -⟩ := hs
  rw [State.gridRead, Memory.read_eq_none_iff, hgrid, hlen hp, List.mem_range, Nat.not_lt]

/-- Settles O21: reset leaves BUF empty, a store is a write, and in RUN BUF follows GRID, which ends at the cursor. -/
theorem consumerReadsOnlyStoredBits : Obligations.ConsumerReadsOnlyStoredBits := by
  refine ⟨fun _ _ => rfl, State.storeBit_bufRead, fun s hs hp i => ⟨fun hi => ?_, fun hi => ?_⟩⟩
  · have hread : s.gridRead i ≠ none := fun h => Nat.not_lt.2 ((hs.gridRead_eq_none_iff hp i).1 h) hi
    obtain ⟨w, hw⟩ := Option.ne_none_iff_exists'.1 hread
    exact ⟨w, hw, State.bufRead_of_some (by rw [hs.read_buf, hw]; rfl)⟩
  · have hread : s.gridRead i = none := (hs.gridRead_eq_none_iff hp i).2 hi
    exact State.bufRead_of_none (by rw [hs.read_buf, hread]; rfl)

end Sys2Proof.Machine
end

section
/-! The index spaces over operations: empty after an accepted descriptor, canonical after every operation, and never accessed
outside the frame (R25, R27, R28). -/

namespace Sys2Proof.Machine

@[simp] theorem State.startFrame_grid (s : State) (w h : Nat) : (s.startFrame w h).grid = [] := by
  rcases s.startFrame_cases w h with ⟨-, e⟩ | ⟨-, e⟩ <;> simp [e]

@[simp] theorem State.startFrame_buf (s : State) (w h : Nat) : (s.startFrame w h).buf = [] := by
  rcases s.startFrame_cases w h with ⟨-, e⟩ | ⟨-, e⟩ <;> simp [e]

@[simp] theorem State.startFrame_host (s : State) (w h : Nat) : (s.startFrame w h).host = s.host := by
  rcases s.startFrame_cases w h with ⟨-, e⟩ | ⟨-, e⟩ <;> simp [e]

/-- In IDLE a descriptor that fits the ports is accepted (R69). -/
theorem execStart_of_idle {w h : Nat} {s : State} (hp : s.seq.phase = .idle) (hf : Descriptor.Fits s.seq.dimBits ⟨w, h⟩) :
    execStart w h s = .next (s.startFrame w h) := by
  rcases execStart_cases w h s with ⟨hr, -⟩ | ⟨-, -, e⟩ | ⟨-, hn, -⟩
  · cases hp.symm.trans hr
  · exact e
  · exact absurd hf hn

/-- Settles O23: every DIM_BITS wide pair fits, and `startFrame` leaves both spaces empty. -/
theorem startOpensNewSpaces : Obligations.StartOpensNewSpaces := by
  intro s w h hp
  refine ⟨_, execStart_of_idle hp ⟨w.isLt, h.isLt⟩, fun a => ?_, fun a => State.bufRead_of_none ?_⟩
  · rw [State.gridRead, State.startFrame_grid, Memory.read_nil]
  · rw [State.startFrame_buf, Memory.read_nil]

/-- In RUN with a cursor outside its frame, whatever the access, it faults (log 9). -/
theorem State.atCursor_of_outside {s : State} (hp : s.seq.phase = .run) (hi : s.seq.size ≤ s.seq.index.toNat)
    (waiting : State) (access : Nat → State) : s.atCursor waiting access = .fault (.outsideFrame s.seq.index.toNat) := by
  rcases s.atCursor_cases waiting access with ⟨hidle, -⟩ | ⟨-, hlt, -⟩ | ⟨-, -, e⟩
  · cases hp.symm.trans hidle
  · exact absurd hi (Nat.not_le.2 hlt)
  · exact e

/-- Settles O20: LDPIX, STBIT and STEP are one access at the cursor each. -/
theorem accessOutsideTheFrameFaults : Obligations.AccessOutsideTheFrameFaults := by
  intro p b s hp hi
  have hfault := State.atCursor_of_outside hp hi
  exact ⟨hfault s (s.loadPixel · p), hfault s (s.storeBit · b), hfault s.noTransfer (s.convert · p)⟩

/-- Both index spaces list their indexes strictly rising (log 7). -/
def State.Canonical (s : State) : Prop :=
  Memory.wf s.grid = true ∧ Memory.wf s.buf = true

theorem State.Canonical.loadPixel {s : State} (hs : s.Canonical) (i : Nat) (p : PixelSample) :
    (s.loadPixel i p).Canonical :=
  ⟨Memory.write_wf _ _ _ hs.1, hs.2⟩

theorem State.Canonical.storeBit {s : State} (hs : s.Canonical) (i : Nat) (b : BitVec 1) : (s.storeBit i b).Canonical :=
  ⟨hs.1, Memory.write_wf _ _ _ hs.2⟩

theorem State.Canonical.convert {s : State} (hs : s.Canonical) (i : Nat) (p : PixelSample) : (s.convert i p).Canonical := by
  rw [State.Canonical, State.convert_grid, State.convert_buf]
  exact ⟨Memory.write_wf _ _ _ hs.1, Memory.write_wf _ _ _ hs.2⟩

/-- The spaces of a new frame are empty, hence canonical. -/
theorem State.startFrame_canonical (s : State) (w h : Nat) : (s.startFrame w h).Canonical := by
  rw [State.Canonical, State.startFrame_grid, State.startFrame_buf]
  exact ⟨rfl, rfl⟩

theorem execLdpix_canonical {p : PixelSample} {s t : State} (hs : s.Canonical) (h : execLdpix p s = .next t) :
    t.Canonical := by
  rcases State.atCursor_eq_next h with ⟨-, rfl⟩ | ⟨-, -, rfl⟩
  · exact hs
  · exact hs.loadPixel _ _

theorem execStbit_canonical {dot : BitVec 1} {s t : State} (hs : s.Canonical) (h : execStbit dot s = .next t) :
    t.Canonical := by
  rcases State.atCursor_eq_next h with ⟨-, rfl⟩ | ⟨-, -, rfl⟩
  · exact hs
  · exact hs.storeBit _ _

theorem execStep_canonical {p : PixelSample} {s t : State} (hs : s.Canonical) (h : execStep p s = .next t) :
    t.Canonical := by
  rcases State.atCursor_eq_next h with ⟨-, rfl⟩ | ⟨-, -, rfl⟩
  · exact hs
  · exact hs.convert _ _

theorem execStart_canonical {w h : Nat} {s t : State} (hs : s.Canonical) (he : execStart w h s = .next t) :
    t.Canonical := by
  rcases execStart_cases w h s with ⟨-, e⟩ | ⟨-, -, e⟩ | ⟨-, -, e⟩ <;> rw [e] at he <;> cases he
  · exact hs
  · exact s.startFrame_canonical w h

theorem runSamples_canonical {ps : List PixelSample} {s t : State} (hs : s.Canonical) (h : runSamples ps s = .next t) :
    t.Canonical := by
  induction ps generalizing s with
  | nil =>
    cases h
    exact hs
  | cons p ps ih =>
    unfold runSamples at h
    split at h
    · cases h
      exact hs
    · obtain ⟨u, hstep, hrest⟩ := andThen_eq_next h
      exact ih (execStep_canonical hs hstep) hrest

theorem execRasterize_canonical {g : PixelGrid} {s t : State} (hs : s.Canonical) (h : execRasterize g s = .next t) :
    t.Canonical := by
  unfold execRasterize at h
  split at h
  · obtain ⟨u, hstart, hrun⟩ := andThen_eq_next h
    exact runSamples_canonical (execStart_canonical hs hstart) hrun
  · cases h
    exact hs

/-- The datapath operations leave both spaces alone; each other operation writes them through `Memory.write` or empties
them. -/
theorem exec_canonical {i : Instr} {s t : State} (hs : s.Canonical) (h : exec i s = .next t) : t.Canonical := by
  cases i with
  | sum3 p | div3 p | luma p | thresh p | inv p | ashamt p | shmux p | ainv p | pixel p =>
    cases h
    exact hs
  | ldpix p => exact execLdpix_canonical hs h
  | stbit dot => exact execStbit_canonical hs h
  | step p => exact execStep_canonical hs h
  | start w h' => exact execStart_canonical hs h
  | rasterize g => exact execRasterize_canonical hs h

/-- Settles O38. -/
theorem spacesStayCanonical : Obligations.SpacesStayCanonical :=
  fun _ _ _ hgrid hbuf => exec_canonical ⟨hgrid, hbuf⟩

end Sys2Proof.Machine
end

section
/-! A run of samples as a function of the state, and the length invariant it may break (R41, R71). -/

namespace Sys2Proof.Machine

/-- The samples of a list converted one after another, each at the cursor: what `runSamples` does while the frame lasts
(`runSamples_append`). -/
def State.convertAll : State → List PixelSample → State
  | s, [] => s
  | s, p :: ps => (s.convert s.seq.index.toNat p).convertAll ps

@[simp] theorem State.convertAll_nil (s : State) : s.convertAll [] = s := rfl

@[simp] theorem State.convertAll_cons (s : State) (p : PixelSample) (ps : List PixelSample) :
    s.convertAll (p :: ps) = (s.convert s.seq.index.toNat p).convertAll ps := rfl

@[simp] theorem State.convertAll_host (s : State) (ps : List PixelSample) : (s.convertAll ps).host = s.host := by
  induction ps generalizing s with
  | nil => rfl
  | cons p ps ih => rw [State.convertAll_cons, ih, State.convert_host]

/-- Words that find the block IDLE stay offered, whatever their number (R41). -/
theorem runSamples_of_idle {s : State} (hp : s.seq.phase = .idle) (ps : List PixelSample) :
    runSamples ps s = .next (s.returnWords ps) := by
  cases ps with
  | nil => rfl
  | cons p ps => rw [runSamples, hp]

/-- Inside the frame the first sample is converted at the cursor (R70). -/
theorem runSamples_cons_of_run {s : State} (hq : s.seq.Inv) (hp : s.seq.phase = .run) (p : PixelSample)
    (ps : List PixelSample) : runSamples (p :: ps) s = runSamples ps (s.convert s.seq.index.toNat p) := by
  have hstep : execStep p s = .next (s.convert s.seq.index.toNat p) := by
    rw [execStep, State.atCursor, hp]
    exact if_pos (hq.index_lt_size hp)
  rw [runSamples, hp, hstep]
  rfl

theorem Sequencer.Inv.remaining_pos {q : Sequencer} (hq : q.Inv) (hp : q.phase = .run) : 0 < q.remaining :=
  Nat.sub_pos_of_lt (hq.index_lt_size hp)

/-- The last pixel is the one that remains alone. -/
theorem Sequencer.Inv.isLast_iff_remaining {q : Sequencer} (hq : q.Inv) (hp : q.phase = .run) :
    q.isLast = true ↔ q.remaining = 1 := by
  have hlt := hq.index_lt_size hp
  rw [hq.isLast_iff hp, Sequencer.remaining]
  omega

/-- While more than one pixel remains, a STEP stays in the frame and leaves one fewer. -/
theorem Sequencer.Inv.advance_remaining {q : Sequencer} (hq : q.Inv) (hp : q.phase = .run) (hr : 1 < q.remaining) :
    q.isLast = false ∧ q.advance.phase = .run ∧ q.advance.index.toNat = q.index.toNat + 1 ∧
      q.advance.remaining + 1 = q.remaining := by
  have hl : q.isLast = false := Bool.eq_false_iff.2 fun hl => hr.ne' ((hq.isLast_iff_remaining hp).1 hl)
  obtain ⟨hrun, hW, hH, hidx, -⟩ := Sequencer.advance_inFrame hq hp hl
  refine ⟨hl, hrun, hidx, ?_⟩
  rw [Sequencer.remaining] at hr
  rw [Sequencer.remaining, Sequencer.remaining, Sequencer.size, hW, hH, ← Sequencer.size, hidx]
  omega

/-- The STEPs of a frame come first: as many samples as the frame has room for are converted, and the run goes on with the
others. -/
theorem runSamples_append {ps : List PixelSample} {s : State} (hq : s.seq.Inv) (hp : s.seq.phase = .run)
    (hlen : ps.length ≤ s.seq.remaining) (qs : List PixelSample) :
    runSamples (ps ++ qs) s = runSamples qs (s.convertAll ps) := by
  induction ps generalizing s with
  | nil => rfl
  | cons p ps ih =>
    rw [List.cons_append, runSamples_cons_of_run hq hp, State.convertAll_cons]
    cases ps with
    | nil => rfl
    | cons p' ps =>
      rw [List.length_cons, List.length_cons] at hlen
      obtain ⟨-, hrun, -, hrem⟩ := hq.advance_remaining hp (by omega)
      apply ih <;> rw [State.convert_seq]
      · exact hq.advance hp
      · exact hrun
      · rw [List.length_cons]
        omega

/-- Fewer samples than remain leave the frame running, with their dots emitted and no `DONE` (R41). -/
theorem State.convertAll_of_short {ps : List PixelSample} {s : State} (hq : s.seq.Inv) (hp : s.seq.phase = .run)
    (hlen : ps.length < s.seq.remaining) :
    (s.convertAll ps).seq.phase = .run ∧ (s.convertAll ps).trace = s.trace ++ dotsFrom s.seq.index.toNat ps := by
  induction ps generalizing s with
  | nil => exact ⟨hp, (List.append_nil _).symm⟩
  | cons p ps ih =>
    rw [List.length_cons] at hlen
    obtain ⟨hl, hrun, hidx, hrem⟩ := hq.advance_remaining hp (by omega)
    have hrest := @ih (s.convert s.seq.index.toNat p)
    rw [State.convert_seq, State.convert_trace, hl, hidx] at hrest
    obtain ⟨hphase, htrace⟩ := hrest (hq.advance hp) hrun (by omega)
    exact ⟨hphase, htrace.trans (List.append_assoc _ _ _)⟩

/-- As many samples as remain end the frame (R70). -/
theorem State.convertAll_seq_of_full {ps : List PixelSample} {s : State} (hq : s.seq.Inv) (hp : s.seq.phase = .run)
    (hlen : ps.length = s.seq.remaining) : (s.convertAll ps).seq = Sequencer.idle s.seq.dimBits := by
  induction ps generalizing s with
  | nil => exact absurd hlen (hq.remaining_pos hp).ne
  | cons p ps ih =>
    cases ps with
    | nil =>
      have hl : s.seq.isLast = true := (hq.isLast_iff_remaining hp).2 hlen.symm
      rw [State.convertAll_cons, State.convertAll_nil, State.convert_seq, Sequencer.advance_of_isLast hl]
    | cons p' ps =>
      rw [List.length_cons, List.length_cons] at hlen
      obtain ⟨-, hrun, -, hrem⟩ := hq.advance_remaining hp (by omega)
      have hrest := @ih (s.convert s.seq.index.toNat p)
      rw [State.convert_seq, Sequencer.advance_dimBits, List.length_cons] at hrest
      exact hrest (hq.advance hp) hrun (by omega)

/-- More samples than remain end the frame, and the surplus stays offered (R41). -/
theorem runSamples_of_long {ps : List PixelSample} {s : State} (hq : s.seq.Inv) (hp : s.seq.phase = .run)
    (hlen : s.seq.remaining ≤ ps.length) :
    runSamples ps s = .next ((s.convertAll (ps.take s.seq.remaining)).returnWords (ps.drop s.seq.remaining)) ∧
      (s.convertAll (ps.take s.seq.remaining)).seq.phase = .idle := by
  have htake : (ps.take s.seq.remaining).length = s.seq.remaining := List.length_take_of_le hlen
  have hphase : (s.convertAll (ps.take s.seq.remaining)).seq.phase = .idle := by
    rw [State.convertAll_seq_of_full hq hp htake, Sequencer.idle]
  have hrun := runSamples_append hq hp htake.le (ps.drop s.seq.remaining)
  rw [List.take_append_drop, runSamples_of_idle hphase] at hrun
  exact ⟨hrun, hphase⟩

/-- A frame that has just opened has all its pixels to convert. -/
theorem Sequencer.launch_remaining {n w h : Nat} (hf : Descriptor.Fits n ⟨w, h⟩) :
    (Sequencer.launch n w h).remaining = w * h := by
  obtain ⟨hW, hH⟩ := Sequencer.launch_toNat hf
  rw [Sequencer.remaining, Sequencer.size, hW, hH, Sequencer.launch_index, Nat.sub_zero]

/-- In IDLE, RASTERIZE of a grid that fits opens its frame and runs its samples (R52). -/
theorem execRasterize_of_idle {g : PixelGrid} {s : State} (hp : s.seq.phase = .idle)
    (hf : Descriptor.Fits s.seq.dimBits ⟨g.width, g.height⟩) :
    execRasterize g s = runSamples g.samples (s.startFrame g.width g.height) := by
  rw [execRasterize, hp]
  show andThen (execStart g.width g.height s) (runSamples g.samples) = _
  rw [execStart_of_idle hp hf, andThen_next]

/-- An empty descriptor keeps the registers; any other opens its frame in RUN (R69). -/
theorem State.startFrame_seq (s : State) (w h : Nat) :
    (s.startFrame w h).seq = if w = 0 ∨ h = 0 then s.seq else Sequencer.launch s.seq.dimBits w h := by
  unfold State.startFrame
  split <;> rfl

/-- Whether `pix_ready` follows `dot_ready` is the phase's to say (R20). -/
theorem State.pixReady_of_run {s : State} (hp : s.seq.phase = .run) : s.pixReady = s.dotReady := by
  simp [State.pixReady, hp]

theorem State.pixReady_of_idle {s : State} (hp : s.seq.phase = .idle) : s.pixReady = false := by
  simp [State.pixReady, hp]

/-- A descriptor that is not empty opens its frame at the first of its pixels (R69). -/
theorem State.startFrame_opens {s : State} {w h : Nat} (hf : Descriptor.Fits s.seq.dimBits ⟨w, h⟩)
    (hne : ¬ (w = 0 ∨ h = 0)) :
    (s.startFrame w h).seq.Inv ∧ (s.startFrame w h).seq.phase = .run ∧ (s.startFrame w h).seq.index.toNat = 0 ∧
      (s.startFrame w h).seq.remaining = w * h := by
  obtain ⟨hw, hh⟩ := not_or.1 hne
  rw [State.startFrame_seq, if_neg hne]
  exact ⟨Sequencer.launch_inv hf hw hh, rfl, Sequencer.launch_index _ _ _, Sequencer.launch_remaining hf⟩

/-- Settles O45: an empty frame takes no word; in any other the words are too few to end it, or end it with some left. -/
theorem shortAndLongGrids : Obligations.ShortAndLongGrids := by
  intro g s _ hp hf
  have hexec : exec (.rasterize g) s = _ := execRasterize_of_idle hp hf
  rw [hexec]
  by_cases he : g.width = 0 ∨ g.height = 0
  · have hidle : (s.startFrame g.width g.height).seq.phase = .idle := by rwa [State.startFrame_seq, if_pos he]
    rw [Nat.mul_eq_zero.2 he]
    refine ⟨_, runSamples_of_idle hidle _, fun hlt => absurd hlt (Nat.not_lt_zero _), fun _ =>
      ⟨hidle, State.pixReady_of_idle hidle, ?_⟩⟩
    rw [State.returnWords_host, State.startFrame_host, List.drop_zero]
  · obtain ⟨hinv, hrun, hidx, hrem⟩ := State.startFrame_opens hf he
    rw [← hrem]
    rcases lt_or_ge g.samples.length (s.startFrame g.width g.height).seq.remaining with hshort | hlong
    · have hall := runSamples_append hinv hrun hshort.le []
      rw [List.append_nil] at hall
      obtain ⟨hphase, htrace⟩ := State.convertAll_of_short hinv hrun hshort
      refine ⟨_, hall, fun _ => ⟨hphase, State.pixReady_of_run hphase, ?_, ?_⟩, fun h => absurd h hshort.not_gt⟩
      · rw [htrace, hidx, State.startFrame_trace, if_neg he, List.append_assoc]
        rfl
      · rw [State.convertAll_host, State.startFrame_host]
    · obtain ⟨hall, hphase⟩ := runSamples_of_long hinv hrun hlong
      refine ⟨_, hall, fun h => absurd h hlong.not_gt, fun _ => ⟨hphase, State.pixReady_of_idle hphase, ?_⟩⟩
      rw [State.returnWords_host, State.convertAll_host, State.startFrame_host]

end Sys2Proof.Machine
end

section
/-! The decoder on a grid that breaks the length invariant (R25, R41). -/

namespace Sys2Proof

/-- Reading more pixel words than there are ends at the last one, with the number still missing (log 16). -/
theorem decodeSamples_of_short {n : Nat} {ps : List PixelSample} (h : ps.length < n) :
    decodeSamples n (ps.map fun p => .pix p.word) = .error (.shortGrid (n - ps.length)) := by
  induction ps generalizing n with
  | nil =>
    cases n with
    | zero => exact absurd h (Nat.not_lt_zero _)
    | succ n => rfl
  | cons p ps ih =>
    cases n with
    | zero => exact absurd h (Nat.not_lt_zero _)
    | succ n =>
      rw [List.map_cons, decodeSamples, ih (Nat.lt_of_succ_lt_succ h), List.length_cons, Nat.add_sub_add_right]

/-- Settles O53: the error of the samples is the RASTERIZE's. -/
theorem shortGridRejected : Obligations.ShortGridRejected := by
  intro w h ps hlen
  rw [decode, decodeSamples_of_short hlen]

end Sys2Proof
end

section
/-! Formats P and F on the numbers, and a beat against its bits: nothing is padded, reserved or dropped (R42 to R46, R49). -/

namespace Sys2Proof

/-- A concatenation puts its left part above its right one (R43, R44). -/
theorem toNat_append_eq_add {m n : Nat} (x : BitVec m) (y : BitVec n) :
    (x ++ y).toNat = x.toNat * 2 ^ n + y.toNat := by
  rw [BitVec.toNat_append, ← Nat.shiftLeft_add_eq_or_of_lt y.isLt, Nat.shiftLeft_eq]

/-- Packing the fields of a pixel word gives the word back: neighbouring slices join up to the whole (R43, R46). -/
theorem PixelSample.word_ofWord (w : PixWord) : (PixelSample.ofWord w).word = w := by
  simp only [PixelSample.word, PixelSample.ofWord]
  rw [BitVec.extractLsb'_append_extractLsb'_eq_extractLsb' (show 24 = 16 + 8 from rfl),
    BitVec.extractLsb'_append_extractLsb'_eq_extractLsb' (show 16 = 8 + 8 from rfl),
    BitVec.extractLsb'_append_extractLsb'_eq_extractLsb' (show 8 = 0 + 8 from rfl)]
  exact BitVec.extractLsb'_eq_self

theorem PixelSample.word_toNat (p : PixelSample) :
    p.word.toNat = p.red.toNat * 2 ^ 24 + p.green.toNat * 2 ^ 16 + p.blue.toNat * 2 ^ 8 + p.alpha.toNat := by
  rw [PixelSample.word, toNat_append_eq_add, toNat_append_eq_add, toNat_append_eq_add]
  omega

/-- Settles O48: the value of the concatenation, and the two round trips. -/
theorem pixelWordLayout : Obligations.PixelWordLayout :=
  ⟨PixelSample.word_toNat, Machine.PixelSample.ofWord_word, PixelSample.word_ofWord⟩

/-- Two samples of the same colour whose alphas agree in the top two bits have the same dot (R46, R60). -/
theorem pixelBit_congr {p q : PixelSample} (hred : p.red = q.red) (hgreen : p.green = q.green) (hblue : p.blue = q.blue)
    (halpha : p.alpha.toNat / 64 = q.alpha.toNat / 64) : Machine.pixelBit p = Machine.pixelBit q := by
  have hshamt : Machine.ashamt p.alpha = Machine.ashamt q.alpha :=
    BitVec.eq_of_toNat_eq (by rw [Machine.ashamt_toNat, Machine.ashamt_toNat, halpha])
  simp only [Machine.pixelBit, Machine.ainv, Machine.whitenessOf, hred, hgreen, hblue, hshamt]

/-- A field that begins at bit `m` or above is the same in words that agree from bit `m` on. -/
theorem extractLsb'_congr_of_shiftRight {w v : PixWord} {m k : Nat} (h : w.toNat >>> m = v.toNat >>> m) (hk : m ≤ k) (n : Nat) :
    w.extractLsb' k n = v.extractLsb' k n := by
  obtain ⟨j, rfl⟩ := Nat.exists_eq_add_of_le hk
  refine BitVec.eq_of_toNat_eq ?_
  rw [BitVec.extractLsb'_toNat, BitVec.extractLsb'_toNat, Nat.shiftRight_add, Nat.shiftRight_add, h]

/-- Settles O49: the fields are slices of the word; of a word's bits 5 to 0 the colours see none and ASHAMT drops those it
gets. -/
theorem pixelFieldExtraction : Obligations.PixelFieldExtraction := by
  refine ⟨fun w k hk => ?_, fun w v h => ?_⟩
  · simp [PixelSample.ofWord, hk]
  · have hfield (k : Nat) (hk : 6 ≤ k) : w.extractLsb' k 8 = v.extractLsb' k 8 :=
      extractLsb'_congr_of_shiftRight (m := 6) (by rwa [Nat.shiftRight_eq_div_pow, Nat.shiftRight_eq_div_pow]) hk 8
    refine pixelBit_congr (hfield 24 (by decide)) (hfield 16 (by decide)) (hfield 8 (by decide)) ?_
    simp only [PixelSample.ofWord, BitVec.extractLsb'_toNat, Nat.shiftRight_zero]
    omega

theorem Descriptor.not_fits_iff {n w h : Nat} : ¬ Descriptor.Fits n ⟨w, h⟩ ↔ 2 ^ n ≤ w ∨ 2 ^ n ≤ h := by
  rw [Descriptor.Fits, not_and_or, not_lt, not_lt]

section
variable {n : Nat}

@[simp] theorem DescWord.cfgW_descWord (w h : BitVec n) : DescWord.cfgW (descWord w h) = w :=
  BitVec.extractLsb'_append_eq_right

@[simp] theorem DescWord.cfgH_descWord (w h : BitVec n) : DescWord.cfgH (descWord w h) = h :=
  BitVec.extractLsb'_append_eq_left

/-- Packing the fields of a descriptor word gives the word back (R44). -/
@[simp] theorem descWord_cfgW_cfgH (d : DescWord n) : descWord (DescWord.cfgW d) (DescWord.cfgH d) = d := by
  rw [descWord, DescWord.cfgW, DescWord.cfgH, BitVec.extractLsb'_append_extractLsb'_eq_extractLsb' (Nat.zero_add n).symm]
  exact BitVec.extractLsb'_eq_self

/-- Bits are read as a beat exactly when there are as many as the format has (R42). -/
theorem Beat.ofBits_eq_ok_iff {f : Format} {nbits w : Nat} {b : Beat} :
    Beat.ofBits n f nbits w = .ok b ↔ nbits = f.nbits n ∧ Beat.ofWord n f w = b := by
  unfold Beat.ofBits
  split <;> simp [*]

/-- A beat the instance can be given is the one its bits stand for. -/
theorem Beat.ofWord_bits {b : Beat} (hb : b.Fits n) : Beat.ofWord n b.format (b.bits n) = b := by
  cases b with
  | pix w | dot w => simp [Beat.ofWord, Beat.format, Beat.bits]
  | desc d =>
    obtain ⟨hW, hH⟩ := hb
    simp [Beat.ofWord, Beat.format, Beat.bits, Nat.mod_eq_of_lt hW, Nat.mod_eq_of_lt hH]

/-- Bits of the right number make a beat the instance can be given. -/
theorem Beat.ofWord_fits (f : Format) (w : Nat) : (Beat.ofWord n f w).Fits n := by
  cases f with
  | P | O => trivial
  | F => exact ⟨BitVec.isLt _, BitVec.isLt _⟩

@[simp] theorem Beat.ofWord_format (f : Format) (w : Nat) : (Beat.ofWord n f w).format = f := by
  cases f <;> rfl

/-- The beat has the bits it was read from (R49). -/
theorem Beat.bits_ofWord (f : Format) (w : Nat) : (Beat.ofWord n f w).bits n = w % 2 ^ f.nbits n := by
  cases f with
  | P | O => exact BitVec.toNat_ofNat _ _
  | F => simp [Beat.ofWord, Beat.bits, Format.nbits]

theorem Beat.ofBits_bits {b : Beat} (hb : b.Fits n) : Beat.ofBits n b.format (b.format.nbits n) (b.bits n) = .ok b :=
  Beat.ofBits_eq_ok_iff.2 ⟨rfl, Beat.ofWord_bits hb⟩

end

/-- Settles O58: `ofWord` and `bits` undo each other, format by format. -/
theorem beatBitsRoundTrip : Obligations.BeatBitsRoundTrip := by
  refine ⟨fun _ _ => Beat.ofBits_bits, fun n f nbits w b h => ?_⟩
  obtain ⟨rfl, rfl⟩ := Beat.ofBits_eq_ok_iff.1 h
  exact ⟨Beat.ofWord_fits f w, Beat.ofWord_format f w, rfl, Beat.bits_ofWord f w⟩

/-- Settles O50: the concatenation and its slices; what is read fits the instance, and what fits is read from its bits. -/
theorem descriptorLayout : Obligations.DescriptorLayout := by
  refine ⟨fun _ w h => toNat_append_eq_add h w, fun _ w h => ⟨DescWord.cfgW_descWord w h, DescWord.cfgH_descWord w h⟩,
    fun _ => descWord_cfgW_cfgH, fun n d => ⟨?_, fun hd => ⟨_, Beat.ofBits_bits (b := .desc d) hd⟩⟩⟩
  rintro ⟨w, hw⟩
  have hfits : (Beat.ofWord n .F w).Fits n := Beat.ofWord_fits .F w
  rwa [(Beat.ofBits_eq_ok_iff.1 hw).2] at hfits

end Sys2Proof
end

section
/-! The row's decoder against the encoder, in both directions: a lemma for the eleven rows of format P, one for the words of
a grid, one for each other row (R42, R48, R49). -/

namespace Sys2Proof

theorem PixelGrid.wellFormed_iff (g : PixelGrid) : g.wellFormed = true ↔ g.samples.length = g.width * g.height :=
  beq_iff_eq

/-! ### Decoding what was encoded -/

/-- A row of format P reads the sample whose word comes first. -/
theorem decodePix_word (op : Op) (mk : PixelSample → Instr) (p : PixelSample) (rest : List Beat) :
    decodePix op mk (.pix p.word :: rest) = .ok (mk p, rest) := by
  rw [decodePix, Machine.PixelSample.ofWord_word]

/-- The words of a list of samples are read back, as many as there are. -/
theorem decodeSamples_words (ps : List PixelSample) (rest : List Beat) :
    decodeSamples ps.length ((ps.map fun p => .pix p.word) ++ rest) = .ok (ps, rest) := by
  induction ps with
  | nil => rfl
  | cons p ps ih => rw [List.length_cons, List.map_cons, List.cons_append, decodeSamples, ih, Machine.PixelSample.ofWord_word]

/-- A RASTERIZE is read back when its grid has the samples its descriptor announces (R25). -/
theorem decode_rasterize_encode {g : PixelGrid} (hg : g.wellFormed = true) (rest : List Beat) :
    decode .rasterize (encode (.rasterize g) ++ rest) = .ok (.rasterize g, rest) := by
  rw [encode, List.cons_append, decode, ← (PixelGrid.wellFormed_iff g).1 hg, decodeSamples_words]

theorem decode_encode {i : Instr} (hi : i.WellFormed) (rest : List Beat) :
    decode i.op (encode i ++ rest) = .ok (i, rest) := by
  cases i with
  | sum3 p | div3 p | luma p | thresh p | inv p | ashamt p | shmux p | ainv p | pixel p | ldpix p | step p =>
    simp [encode, Instr.op, decode, decodePix_word]
  | stbit b => rfl
  | start w h => rfl
  | rasterize g => exact decode_rasterize_encode hi rest

/-- An instance that can be given the instruction can be given each of its beats (R44, R97). -/
theorem encode_fits {n : Nat} {i : Instr} (hi : i.Fits n) {b : Beat} (hb : b ∈ encode i) : b.Fits n := by
  cases i with
  | sum3 p | div3 p | luma p | thresh p | inv p | ashamt p | shmux p | ainv p | pixel p | ldpix p | step p | stbit p =>
    obtain rfl := List.mem_singleton.1 hb
    trivial
  | start w h =>
    obtain rfl := List.mem_singleton.1 hb
    exact hi
  | rasterize g =>
    rcases List.mem_cons.1 hb with rfl | hb
    · exact hi
    · obtain ⟨p, -, rfl⟩ := List.mem_map.1 hb
      trivial

/-- Settles O51: `decode_encode`, and each beat fits the instance, so it is read back from its bits. -/
theorem decodeOfEncode : Obligations.DecodeOfEncode :=
  fun _ rest hi => ⟨decode_encode hi rest, fun _ hfits _ hb => Beat.ofBits_bits (encode_fits hfits hb)⟩

/-! ### Encoding what was decoded -/

/-- A row of format P that reads something reads the word of the sample it answers. -/
theorem decodePix_eq_ok {op : Op} {mk : PixelSample → Instr} {beats rest : List Beat} {i : Instr}
    (h : decodePix op mk beats = .ok (i, rest)) : ∃ p, i = mk p ∧ beats = .pix p.word :: rest := by
  unfold decodePix at h
  split at h <;> cases h
  exact ⟨_, rfl, by rw [PixelSample.word_ofWord]⟩

/-- Samples that are read are as many as were asked for, and their words are what was read. -/
theorem decodeSamples_eq_ok {n : Nat} {beats rest : List Beat} {ps : List PixelSample}
    (h : decodeSamples n beats = .ok (ps, rest)) :
    ps.length = n ∧ (ps.map fun p => .pix p.word) ++ rest = beats := by
  induction n generalizing beats ps with
  | zero =>
    cases h
    exact ⟨rfl, rfl⟩
  | succ n ih =>
    cases beats with
    | nil => cases h
    | cons b beats =>
      cases b with
      | desc d | dot b => cases h
      | pix w =>
        rw [decodeSamples] at h
        split at h <;> cases h
        next ps' hrec =>
          obtain ⟨rfl, rfl⟩ := ih hrec
          exact ⟨rfl, by rw [List.map_cons, PixelSample.word_ofWord, List.cons_append]⟩

theorem decode_stbit_eq_ok {beats rest : List Beat} {i : Instr} (h : decode .stbit beats = .ok (i, rest)) :
    ∃ b, i = .stbit b ∧ beats = .dot b :: rest := by
  simp only [decode] at h
  split at h <;> cases h
  exact ⟨_, rfl, rfl⟩

theorem decode_start_eq_ok {beats rest : List Beat} {i : Instr} (h : decode .start beats = .ok (i, rest)) :
    ∃ w h, i = .start w h ∧ beats = .desc ⟨w, h⟩ :: rest := by
  simp only [decode] at h
  split at h <;> cases h
  exact ⟨_, _, rfl, rfl⟩

theorem decode_rasterize_eq_ok {beats rest : List Beat} {i : Instr} (h : decode .rasterize beats = .ok (i, rest)) :
    ∃ g : PixelGrid, i = .rasterize g ∧ g.wellFormed = true ∧ beats = encode (.rasterize g) ++ rest := by
  simp only [decode] at h
  split at h
  case h_1 d beats' =>
    split at h <;> cases h
    next ps hps =>
      obtain ⟨hlen, rfl⟩ := decodeSamples_eq_ok hps
      exact ⟨⟨d.cfgW, d.cfgH, ps⟩, rfl, (PixelGrid.wellFormed_iff _).2 hlen, rfl⟩
  all_goals cases h

/-- Settles O52, row by row. -/
theorem encodeOfDecode : Obligations.EncodeOfDecode := by
  intro op beats rest i h
  cases op with
  | sum3 | div3 | luma | thresh | inv | ashamt | shmux | ainv | pixel | ldpix | step =>
    obtain ⟨p, rfl, rfl⟩ := decodePix_eq_ok h
    exact ⟨rfl, rfl, rfl⟩
  | stbit =>
    obtain ⟨b, rfl, rfl⟩ := decode_stbit_eq_ok h
    exact ⟨rfl, rfl, rfl⟩
  | start =>
    obtain ⟨w, h, rfl, rfl⟩ := decode_start_eq_ok h
    exact ⟨rfl, rfl, rfl⟩
  | rasterize =>
    obtain ⟨g, rfl, hg, rfl⟩ := decode_rasterize_eq_ok h
    exact ⟨hg, rfl, rfl⟩

/-- Settles O54: six closed facts, each evaluated. -/
theorem specWordsDecode : Obligations.SpecWordsDecode := by
  unfold Obligations.SpecWordsDecode
  decide

end Sys2Proof
end

section
/-! The composites of R52, and the grid an instance cannot be given (R44, R97). -/

namespace Sys2Proof.Machine

/-- In RUN with the cursor inside its frame, the access is made at the cursor's index (R67, R68, R70). -/
theorem State.atCursor_of_inside {s : State} (hp : s.seq.phase = .run) (hi : s.seq.index.toNat < s.seq.size)
    (waiting : State) (access : Nat → State) : s.atCursor waiting access = .next (access s.seq.index.toNat) := by
  rw [State.atCursor, hp]
  exact if_pos hi

/-- STEP in RUN is LDPIX, PIXEL, STBIT and the advance (R52): inside the frame the three accesses are at one cursor; outside
it LDPIX faults as STEP does. -/
theorem execStep_of_run {s : State} (hp : s.seq.phase = .run) (p : PixelSample) :
    execStep p s = andThen (andThen (andThen (execLdpix p s) (execPixel p)) (execStbit (pixelBit p))) fun t =>
      .next t.advance := by
  rcases lt_or_ge s.seq.index.toNat s.seq.size with hi | hi
  · have hstbit (w : Wires) : execStbit (pixelBit p) ((s.loadPixel s.seq.index.toNat p).withWires w) =
        .next (((s.loadPixel s.seq.index.toNat p).withWires w).storeBit s.seq.index.toNat (pixelBit p)) :=
      State.atCursor_of_inside (s := (s.loadPixel s.seq.index.toNat p).withWires w) hp hi _ _
    rw [execStep, execLdpix, State.atCursor_of_inside hp hi, State.atCursor_of_inside hp hi, andThen_next, execPixel,
      andThen_next, hstbit]
    rfl
  · rw [execStep, execLdpix, State.atCursor_of_outside hp hi, State.atCursor_of_outside hp hi]
    rfl

/-- Settles O14: LUMA, AINV and PIXEL compose their parts on the wires' record; STEP is `execStep_of_run`. -/
theorem compositesAreTheirExpansions : Obligations.CompositesAreTheirExpansions := by
  refine fun p s => ⟨rfl, rfl, fun t h => ?_, fun hp => execStep_of_run hp p⟩
  cases h
  rfl

/-- In IDLE a descriptor that the ports cannot carry is refused (log 22). -/
theorem execStart_of_not_fits {w h : Nat} {s : State} (hp : s.seq.phase = .idle)
    (hf : ¬ Descriptor.Fits s.seq.dimBits ⟨w, h⟩) : execStart w h s = .refused (.notDescribable w h) := by
  rcases execStart_cases w h s with ⟨hr, -⟩ | ⟨-, hf', -⟩ | ⟨-, -, e⟩
  · cases hp.symm.trans hr
  · exact absurd hf' hf
  · exact e

/-- A RASTERIZE in IDLE stops where its START does. -/
theorem execRasterize_of_not_fits {g : PixelGrid} {s : State} (hp : s.seq.phase = .idle)
    (hf : ¬ Descriptor.Fits s.seq.dimBits ⟨g.width, g.height⟩) :
    execRasterize g s = .refused (.notDescribable g.width g.height) := by
  rw [execRasterize, hp]
  show andThen (execStart g.width g.height s) (runSamples g.samples) = _
  rw [execStart_of_not_fits hp hf]
  rfl

/-- In IDLE an edge takes the oldest descriptor offered (R20). -/
theorem State.transfer_of_startValid {s : State} {d : Descriptor} {ds : List Descriptor} (hp : s.seq.phase = .idle)
    (hv : s.startValid = true) (hd : s.host.descriptors = d :: ds) : s.transfer = some (.desc d) := by
  rw [State.transfer, hv, s.startReady_iff.2 hp, hd]
  rfl

/-- Settles O56: START refuses the descriptor, so RASTERIZE and the edge that takes it do. -/
theorem oversizeGridIsRefused : Obligations.OversizeGridIsRefused := by
  refine ⟨fun w h s hp hbig => execStart_of_not_fits hp (Descriptor.not_fits_iff.2 hbig),
    fun g s hp hbig => execRasterize_of_not_fits hp (Descriptor.not_fits_iff.2 hbig), fun s d ds hp hr hv hd hf => ?_⟩
  rw [step_of_transfer hr (State.transfer_of_startValid hp hv hd)]
  exact execStart_of_not_fits hp hf

end Sys2Proof.Machine
end

section
/-! The luminance stage: what SUM3, DIV3 and LUMA drive, on the numbers of `sum3_toNat` and `luma_toNat` (R53 to R55). -/

namespace Sys2Proof.Machine

/-- DIV3 after SUM3 leaves a remainder of at most 2 (R54). -/
theorem luma_mul_three_bounds (r g b : Channel) :
    3 * (luma r g b).toNat ≤ r.toNat + g.toNat + b.toNat ∧ r.toNat + g.toNat + b.toNat ≤ 3 * (luma r g b).toNat + 2 := by
  rw [luma_toNat]
  omega

/-- Settles O1: the value driven is `sum3`, exact by `sum3_toNat`. -/
theorem sum3AddsExactly : Obligations.Sum3AddsExactly :=
  fun p _ => ⟨sum3 p.red p.green p.blue, rfl, sum3_toNat _ _ _, sum3_le _ _ _⟩

/-- Settles O2: the value driven is the third of the beat's own sum, which is `luma`. -/
theorem div3FloorsTheThird : Obligations.Div3FloorsTheThird :=
  fun p _ => ⟨luma p.red p.green p.blue, rfl, luma_mul_three_bounds _ _ _⟩

/-- Settles O3: SUM3's wire, then DIV3's, each on the numbers; alpha is an argument of neither. -/
theorem lumaIsTheUnweightedMean : Obligations.LumaIsTheUnweightedMean :=
  fun p _ => ⟨sum3 p.red p.green p.blue, luma p.red p.green p.blue, rfl, sum3_toNat _ _ _, luma_toNat _ _ _⟩

end Sys2Proof.Machine
end

section
/-! The threshold stage: what THRESH drives, read on avg (R57) and on the sum of the channels (R58). -/

namespace Sys2Proof.Machine

/-- The boundary of R57, inclusive on the white side. -/
theorem thresh_eq_one_iff (avg : BitVec 8) : thresh avg = 1#1 ↔ 128 ≤ avg.toNat := by
  have hlt := avg.isLt
  rw [← BitVec.toNat_inj, thresh_toNat, BitVec.toNat_ofNat]
  omega

/-- Dark is the other value of the one bit. -/
theorem thresh_eq_zero_iff (avg : BitVec 8) : thresh avg = 0#1 ↔ avg.toNat ≤ 127 := by
  rw [← BitVec.toNat_inj, thresh_toNat, BitVec.toNat_ofNat]
  omega

/-- The comparator on the sum: a third reaches 128 from 384 = 3 · 128 on (R58). -/
theorem thresh_div3_eq_one_iff {sum : BitVec 10} (h : sum.toNat ≤ 765) : thresh (div3 sum) = 1#1 ↔ 384 ≤ sum.toNat := by
  rw [thresh_eq_one_iff, div3_toNat sum h]
  omega

theorem thresh_div3_eq_zero_iff {sum : BitVec 10} (h : sum.toNat ≤ 765) : thresh (div3 sum) = 0#1 ↔ sum.toNat ≤ 383 := by
  rw [thresh_eq_zero_iff, div3_toNat sum h]
  omega

/-- A number of at most 765 is the sum it encodes. -/
theorem sum_ofNat_toNat {n : Nat} (h : n ≤ 765) : (BitVec.ofNat 10 n).toNat = n := by
  rw [BitVec.toNat_ofNat]
  omega

theorem thresh_div3_ofNat_eq_one_iff {n : Nat} (h : n ≤ 765) : thresh (div3 (BitVec.ofNat 10 n)) = 1#1 ↔ 384 ≤ n := by
  have hsum := sum_ofNat_toNat h
  rw [thresh_div3_eq_one_iff (hsum.trans_le h), hsum]

theorem thresh_div3_ofNat_eq_zero_iff {n : Nat} (h : n ≤ 765) : thresh (div3 (BitVec.ofNat 10 n)) = 0#1 ↔ n < 384 := by
  have hsum := sum_ofNat_toNat h
  rw [thresh_div3_eq_zero_iff (hsum.trans_le h), hsum, Nat.lt_succ_iff]

/-- What THRESH leaves on its wire. -/
theorem exec_thresh_whiteness {p : PixelSample} {s t : State} (h : exec (.thresh p) s = .next t) :
    t.wires.whiteness = some (whitenessOf p) := by
  cases h
  rfl

theorem whitenessOf_eq_one_iff (p : PixelSample) : whitenessOf p = 1#1 ↔ 384 ≤ p.red.toNat + p.green.toNat + p.blue.toNat := by
  rw [whitenessOf, luma, thresh_div3_eq_one_iff (sum3_le _ _ _), sum3_toNat]

theorem whitenessOf_eq_zero_iff (p : PixelSample) : whitenessOf p = 0#1 ↔ p.red.toNat + p.green.toNat + p.blue.toNat ≤ 383 := by
  rw [whitenessOf, luma, thresh_div3_eq_zero_iff (sum3_le _ _ _), sum3_toNat]

/-- A sum in the range of R53 is at most 765. -/
theorem le_of_mem_sums {n : Nat} (h : n ∈ List.range 766) : n ≤ 765 :=
  Nat.le_of_lt_succ (List.mem_range.1 h)

/-- The dark sums are the interval from 0 up to 384, and the white ones the rest of the 766. -/
theorem filter_dark_sums :
    ((List.range 766).filter fun n => decide (thresh (div3 (BitVec.ofNat 10 n)) = 0#1)) = List.Ico 0 384 := by
  calc ((List.range 766).filter fun n => decide (thresh (div3 (BitVec.ofNat 10 n)) = 0#1))
      = (List.range 766).filter (fun n => decide (n < 384)) :=
        List.filter_congr fun _ hn => decide_eq_decide.2 (thresh_div3_ofNat_eq_zero_iff (le_of_mem_sums hn))
    _ = List.Ico 0 (min 766 384) := by rw [← List.Ico.zero_bot, List.Ico.filter_lt]

theorem filter_white_sums :
    ((List.range 766).filter fun n => decide (thresh (div3 (BitVec.ofNat 10 n)) = 1#1)) = List.Ico 384 766 := by
  calc ((List.range 766).filter fun n => decide (thresh (div3 (BitVec.ofNat 10 n)) = 1#1))
      = (List.range 766).filter (fun n => decide (384 ≤ n)) :=
        List.filter_congr fun _ hn => decide_eq_decide.2 (thresh_div3_ofNat_eq_one_iff (le_of_mem_sums hn))
    _ = List.Ico (max 0 384) 766 := by rw [← List.Ico.zero_bot, List.Ico.filter_le]

/-- Settles O4: the value driven is `whitenessOf`, the comparison of avg with 128. -/
theorem threshIsWhiteFrom128 : Obligations.ThreshIsWhiteFrom128 := by
  intro p s
  refine ⟨whitenessOf p, rfl, thresh_toNat _, ?_⟩
  rw [whitenessOf, thresh_eq_one_iff, luma_toNat]

/-- Settles O5: avg reaches 128 exactly when the sum reaches 384, so the two counts are the lengths of two intervals. -/
theorem whitenessOnTheSum : Obligations.WhitenessOnTheSum := by
  refine ⟨fun p s t h => ?_, fun _ => thresh_div3_ofNat_eq_one_iff, ?_, ?_⟩
  · rw [exec_thresh_whiteness h, Option.some_inj, Option.some_inj]
    exact ⟨whitenessOf_eq_one_iff p, whitenessOf_eq_zero_iff p⟩
  · rw [filter_dark_sums, List.Ico.length]
  · rw [filter_white_sums, List.Ico.length]

end Sys2Proof.Machine
end

section
/-! The alpha inverter: what INV, ASHAMT and SHMUX do to one pixel, and AINV from them (R59 to R63). -/

namespace Sys2Proof.Machine

/-- The only two cases of R59: a dark pixel wants a dot, a white one a blank. -/
@[simp] theorem inv_zero : inv 0#1 = 1#1 := rfl
@[simp] theorem inv_one : inv 1#1 = 0#1 := rfl

theorem inv_eq_one_iff (w : BitVec 1) : inv w = 1#1 ↔ w = 0#1 := by
  rw [← BitVec.toNat_inj, ← BitVec.toNat_inj, inv_toNat, BitVec.toNat_ofNat, BitVec.toNat_ofNat]
  omega

/-- The opaque band is the one that shifts by nothing (R60). -/
theorem ashamt_eq_zero_iff (a : Channel) : ashamt a = 0#2 ↔ 192 ≤ a.toNat := by
  have hlt := a.isLt
  rw [← BitVec.toNat_inj, ashamt_toNat, BitVec.toNat_ofNat]
  omega

/-- The top two bits of alpha are its band (R60). -/
theorem alpha_top_toNat (a : Channel) : (a.extractLsb' 6 2).toNat = a.toNat / 64 := by
  have hlt := a.isLt
  rw [BitVec.extractLsb'_toNat, Nat.shiftRight_eq_div_pow]
  omega

theorem ashamt_eq_not_top (a : Channel) : ashamt a = ~~~ (a.extractLsb' 6 2) := by
  rw [← BitVec.toNat_inj, ashamt_toNat, BitVec.toNat_not, alpha_top_toNat]

theorem ashamt_congr {a a' : Channel} (h : a.toNat / 64 = a'.toNat / 64) : ashamt a = ashamt a' := by
  rw [← BitVec.toNat_inj, ashamt_toNat, ashamt_toNat, h]

@[simp] theorem shmux_zero (b : BitVec 1) : shmux b 0#2 = b :=
  BitVec.ushiftRight_zero b

/-- A one-bit value shifted by its width or more is 0 (R8, R61). -/
theorem shmux_of_ne_zero (b : BitVec 1) {k : BitVec 2} (h : k ≠ 0#2) : shmux b k = 0#1 :=
  BitVec.ushiftRight_eq_zero (Nat.one_le_iff_ne_zero.2 fun hk => h (BitVec.eq_of_toNat_eq hk))

/-- The 4-input mux of R61. -/
theorem shmux_eq_ite (b : BitVec 1) (k : BitVec 2) : shmux b k = if k = 0#2 then b else 0#1 := by
  split
  next hk => rw [hk, shmux_zero]
  next hk => exact shmux_of_ne_zero b hk

theorem shmux_eq_one_iff (b : BitVec 1) (k : BitVec 2) : shmux b k = 1#1 ↔ b = 1#1 ∧ k = 0#2 := by
  by_cases hk : k = 0#2
  · simp [hk]
  · simp [shmux_of_ne_zero b hk, hk]

/-- The shift only ever reduces base_black toward 0 (R61). -/
theorem shmux_toNat_le (b : BitVec 1) (k : BitVec 2) : (shmux b k).toNat ≤ b.toNat := by
  rw [shmux_toNat]
  exact Nat.div_le_self _ _

theorem ainv_of_opaque (w : BitVec 1) {a : Channel} (h : 192 ≤ a.toNat) : ainv w a = inv w := by
  rw [ainv, (ashamt_eq_zero_iff a).2 h, shmux_zero]

theorem ainv_of_not_opaque (w : BitVec 1) {a : Channel} (h : a.toNat ≤ 191) : ainv w a = 0#1 :=
  shmux_of_ne_zero _ fun hk => absurd ((ashamt_eq_zero_iff a).1 hk) (by omega)

/-- A dot exactly when dark and opaque (R62). -/
theorem ainv_eq_one_iff (w : BitVec 1) (a : Channel) : ainv w a = 1#1 ↔ w = 0#1 ∧ 192 ≤ a.toNat := by
  rw [ainv, shmux_eq_one_iff, inv_eq_one_iff, ashamt_eq_zero_iff]

/-- Settles O10: the opaque band leaves base_black as it is and the others clear it, whatever alpha's bits 5 to 0. -/
theorem ainvProperties : Obligations.AinvProperties := by
  refine ⟨fun p ha hwhite => ?_, fun p ha hdark => ?_, fun p => ainv_of_not_opaque _, fun w a => shmux_toNat_le _ _,
    fun w a a' h => ?_⟩
  · rw [ainv_of_opaque _ ha, whitenessOf, (thresh_eq_one_iff _).2 hwhite, inv_one]
  · rw [ainv_of_opaque _ ha, whitenessOf, (thresh_eq_zero_iff _).2 (Nat.le_of_lt_succ hdark), inv_zero]
  · rw [ainv, ainv, ashamt_congr h]

/-- Settles O6: the value driven is `inv` of the beat's whiteness, and dark is an avg below 128. -/
theorem invWantsADotWhenDark : Obligations.InvWantsADotWhenDark := by
  intro p s
  refine ⟨inv (whitenessOf p), rfl, inv_toNat _, ?_⟩
  rw [inv_eq_one_iff, whitenessOf, thresh_eq_zero_iff, luma_toNat, Nat.lt_succ_iff]

/-- Settles O7: the value driven is `ashamt`; 255 - alpha lies in the band that mirrors alpha's. -/
theorem ashamtComplementsTheTopBits : Obligations.AshamtComplementsTheTopBits := by
  intro p s
  refine ⟨ashamt p.alpha, rfl, ashamt_toNat _, ?_, ashamt_eq_not_top _⟩
  have hlt := p.alpha.isLt
  rw [ashamt_toNat]
  omega

/-- Settles O8: the value driven is `shmux` of the beat's base_black and shamt. -/
theorem shmuxKeepsOrClears : Obligations.ShmuxKeepsOrClears :=
  fun p _ => ⟨shmux (inv (whitenessOf p)) (ashamt p.alpha), rfl, BitVec.toNat_ushiftRight _ _, shmux_eq_ite _ _,
    shmux_toNat_le _ _⟩

/-- Settles O9: the three wires in turn, the last of which is `ainv`. -/
theorem ainvPrintsDarkAndOpaque : Obligations.AinvPrintsDarkAndOpaque :=
  fun p _ => ⟨inv (whitenessOf p), ashamt p.alpha, ainv (whitenessOf p) p.alpha, rfl, inv_toNat _, ashamt_toNat _,
    shmux_toNat _ _, ainv_eq_one_iff _ _⟩

end Sys2Proof.Machine
end

section
/-! The uncorrected alpha formula beside this hardware's (R64). -/

namespace Sys2Proof.Machine

/-- Uncorrected, the band that shifts by nothing is the transparent one. -/
theorem ashamtWith_literal_eq_zero_iff (a : Channel) : ashamtWith .literal a = 0#2 ↔ a.toNat ≤ 63 := by
  have hlt := a.isLt
  rw [ashamtWith, ← BitVec.toNat_inj, BitVec.toNat_setWidth, BitVec.toNat_ushiftRight, Nat.shiftRight_eq_div_pow,
    BitVec.toNat_ofNat]
  omega

theorem pixelBitLiteral_eq_one_iff (p : PixelSample) : pixelBitLiteral p = 1#1 ↔ whitenessOf p = 0#1 ∧ p.alpha.toNat ≤ 63 := by
  rw [pixelBitLiteral, ainvWith, shmux_eq_one_iff, inv_eq_one_iff, ashamtWith_literal_eq_zero_iff]

theorem pixelBit_eq_one_iff (p : PixelSample) : pixelBit p = 1#1 ↔ whitenessOf p = 0#1 ∧ 192 ≤ p.alpha.toNat :=
  ainv_eq_one_iff _ _

/-- Two dots differ when exactly one of them is black. -/
theorem dot_ne_iff : ∀ b c : BitVec 1, b ≠ c ↔ ¬(b = 1#1 ↔ c = 1#1) := by decide

/-- No alpha lies in both outer bands, so there a dark pixel is black under exactly one of the two readings. -/
theorem pixelBitLiteral_ne_iff (p : PixelSample) :
    pixelBitLiteral p ≠ pixelBit p ↔ whitenessOf p = 0#1 ∧ (p.alpha.toNat ≤ 63 ∨ 192 ≤ p.alpha.toNat) := by
  rw [dot_ne_iff, pixelBitLiteral_eq_one_iff, pixelBit_eq_one_iff]
  by_cases hdark : whitenessOf p = 0#1
  · simp only [hdark, true_and]
    omega
  · simp [hdark]

theorem band_cases : ∀ t : BitVec 2, t = 0#2 ∨ (t = 1#2 ∨ t = 2#2) ∨ t = 3#2 := by decide

/-- What R64 asks of a function in the outer and the middle bands fixes it in all four: it shifts by the complement. -/
theorem eq_shmux_not {f : BitVec 1 → BitVec 2 → BitVec 1} (htop : ∀ b, f b 3#2 = b) (hbottom : ∀ b, f b 0#2 = 0#1)
    (hmiddle : ∀ b t, t = 1#2 ∨ t = 2#2 → f b t = b >>> t.toNat) (b : BitVec 1) (t : BitVec 2) :
    f b t = shmux b (~~~ t) := by
  rcases band_cases t with rfl | ht | rfl
  · rw [hbottom, shmux_of_ne_zero b (by decide)]
  · have hshift : t ≠ 0#2 ∧ ~~~ t ≠ 0#2 := by rcases ht with rfl | rfl <;> decide
    calc f b t = shmux b t := hmiddle b t ht
      _ = shmux b (~~~ t) := by rw [shmux_of_ne_zero b hshift.1, shmux_of_ne_zero b hshift.2]
  · rw [htop]
    exact (shmux_zero b).symm

/-- Settles O11: each reading prints in its own outer band, and a function as R64 asks for is SHMUX by the complement of
alpha[7:6], which is ASHAMT. -/
theorem literalReadingDiffersInTheOuterBands : Obligations.LiteralReadingDiffersInTheOuterBands := by
  refine ⟨pixelBitLiteral_eq_one_iff, pixelBitLiteral_ne_iff, fun f htop hbottom hmiddle w a => ?_, rfl⟩
  rw [eq_shmux_not htop hbottom hmiddle, ← ashamt_eq_not_top, ainv]

end Sys2Proof.Machine
end

section
/-! PIXEL on one sample (R65, R66). -/

namespace Sys2Proof.Machine

/-- Settles O12: every wire in turn, the last of which is `pixelBit`; dark is a sum of at most 383. -/
theorem pixelPrintsExactlyDarkAndOpaque : Obligations.PixelPrintsExactlyDarkAndOpaque := by
  intro p s
  refine ⟨sum3 p.red p.green p.blue, luma p.red p.green p.blue, whitenessOf p, inv (whitenessOf p), ashamt p.alpha,
    pixelBit p, rfl, sum3_toNat _ _ _, div3_toNat _ (sum3_le _ _ _), thresh_toNat _, inv_toNat _, ashamt_toNat _,
    shmux_toNat _ _, ?_⟩
  rw [pixelBit_eq_one_iff, whitenessOf_eq_zero_iff]

/-- What PIXEL leaves on its last wire. -/
theorem exec_pixel_finalBlack {p : PixelSample} {s t : State} (h : exec (.pixel p) s = .next t) :
    t.wires.finalBlack = some (ainv (whitenessOf p) p.alpha) := by
  cases h
  rfl

/-- Settles O13: alpha 255 lies in the opaque band and alpha 0 in none that prints, so P1 to P3 are properties of AINV (R63). -/
theorem pixelTestableProperties : Obligations.PixelTestableProperties := by
  intro p s t h
  obtain ⟨hwhite, hdark, hclear, -, -⟩ := ainvProperties
  rw [exec_pixel_finalBlack h]
  refine ⟨fun ha hv => ?_, fun ha hv => ?_, fun ha => ?_⟩
  · rw [hwhite p (by rw [ha]; decide) hv]
  · rw [hdark p (by rw [ha]; decide) hv]
  · rw [hclear p (by rw [ha]; decide)]

end Sys2Proof.Machine
end

section
/-! LDPIX, STBIT, STEP and START one at a time: at the cursor in RUN, waiting where they are not enabled (R67 to R70). -/

namespace Sys2Proof.Machine

section
variable {s : State}

/-- Outside a frame the access is not made (log 13). -/
theorem State.atCursor_of_idle (hp : s.seq.phase = .idle) (waiting : State) (access : Nat → State) :
    s.atCursor waiting access = .next waiting := by
  rw [State.atCursor, hp]

/-- Inside a frame of R17 the access is made at index `y × W + x` (R15). -/
theorem State.atCursor_of_run (hq : s.seq.Inv) (hp : s.seq.phase = .run) (waiting : State) (access : Nat → State) :
    s.atCursor waiting access = .next (access (s.seq.y.toNat * s.seq.W.toNat + s.seq.x.toNat)) := by
  rw [State.atCursor_of_inside hp (hq.index_lt_size hp), Sequencer.index_toNat]

theorem State.loadPixel_gridRead (s : State) (i : Nat) (p : PixelSample) (a : Nat) :
    (s.loadPixel i p).gridRead a = if a = i then some p.word else s.gridRead a :=
  Memory.read_write _ _ _ _

/-- A STEP stores to GRID as its LDPIX does, and to BUF as its STBIT does (R52). -/
theorem State.convert_gridRead (s : State) (i : Nat) (p : PixelSample) (a : Nat) :
    (s.convert i p).gridRead a = if a = i then some p.word else s.gridRead a := by
  rw [← State.loadPixel_gridRead, State.gridRead, State.gridRead, State.convert_grid, State.loadPixel_grid]

theorem State.convert_bufRead (s : State) (i : Nat) (p : PixelSample) (a : Nat) :
    (s.convert i p).bufRead a = if a = i then .ok (pixelBit p) else s.bufRead a := by
  rw [← State.storeBit_bufRead, State.bufRead, State.bufRead, State.convert_buf, State.storeBit_buf]

/-- No START is possible in RUN, whatever the host offers (R20). -/
theorem State.startReady_of_run (hp : s.seq.phase = .run) : s.startReady = false := by
  simp [State.startReady, hp]

/-- In RUN with a word offered and the consumer ready, an edge takes the oldest word (R20, R70). -/
theorem State.transfer_of_joint {w : PixWord} {ws : List PixWord} (hp : s.seq.phase = .run) (hv : s.pixValid = true)
    (hr : s.dotReady = true) (hw : s.host.pixels = w :: ws) : s.transfer = some (.pix w) := by
  rw [State.transfer, State.startReady_of_run hp, State.pixReady_of_run hp, hv, hr, hw, Bool.and_false]
  rfl

/-- In RUN with either side not ready, an edge transfers nothing (R20, R70). -/
theorem State.transfer_of_not_joint (hp : s.seq.phase = .run) (hj : (s.pixValid && s.dotReady) = false) :
    s.transfer = none := by
  rw [State.transfer, State.startReady_of_run hp, State.pixReady_of_run hp, hj, Bool.and_false]
  rfl

/-- In RUN a descriptor waits (R101). -/
theorem execStart_of_run (hp : s.seq.phase = .run) (w h : Nat) : execStart w h s = .next s.noTransfer := by
  rw [execStart, hp]

@[simp] theorem State.startFrame_wires (s : State) (w h : Nat) : (s.startFrame w h).wires = s.wires := by
  rcases s.startFrame_cases w h with ⟨-, e⟩ | ⟨-, e⟩ <;> simp [e]

/-- Whether DIM_BITS wide values describe an empty frame can be read on the numbers (R69). -/
theorem toNat_empty_iff {n : Nat} (w h : BitVec n) : (w.toNat = 0 ∨ h.toNat = 0) ↔ (w = 0 ∨ h = 0) := by
  simp [← BitVec.toNat_inj]

/-- DIM_BITS wide values are loaded into the frame registers as they are (R69). -/
theorem Sequencer.launch_of_bitVec {n : Nat} (w h : BitVec n) :
    Sequencer.launch n w.toNat h.toNat = ⟨n, .run, w, h, 0, 0⟩ := by
  rw [Sequencer.launch, BitVec.ofNat_toNat, BitVec.ofNat_toNat, BitVec.setWidth_eq, BitVec.setWidth_eq]

end

/-- Settles O17: a write to GRID at the cursor, and the channels on their wires. -/
theorem ldpixReadsAtTheCursor : Obligations.LdpixReadsAtTheCursor := by
  intro p s hq hp
  have hlt := hq.index_lt_size hp
  rw [Sequencer.index_toNat] at hlt
  refine ⟨_, State.atCursor_of_run hq hp s (s.loadPixel · p), ?_, hlt, fun a ha => ?_, rfl, fun _ => rfl, rfl, rfl,
    rfl, rfl⟩
  · rw [State.loadPixel_gridRead, if_pos rfl]
  · rw [State.loadPixel_gridRead, if_neg ha]

/-- Settles O18: a write to BUF at the cursor, and its event. -/
theorem stbitStoresAtTheCursor : Obligations.StbitStoresAtTheCursor := by
  intro b s hq hp
  refine ⟨_, State.atCursor_of_run hq hp s (s.storeBit · b), ?_, rfl, fun a ha => ?_, fun _ => rfl, rfl, rfl, rfl, rfl⟩
  · rw [State.storeBit_bufRead, if_pos rfl]
  · rw [State.storeBit_bufRead, if_neg ha]

/-- Settles O24: `convert` at the cursor, in the three cases of its advance, and the edges that do and do not transfer. -/
theorem stepConvertsAndAdvances : Obligations.StepConvertsAndAdvances := by
  refine ⟨fun p s hq hp => ?_, fun s w ws hp hrst hv hr hw => ?_, fun s hp hrst hj => ?_⟩
  · refine ⟨_, State.atCursor_of_run hq hp s.noTransfer (s.convert · p), ?_, ?_, fun a ha => ⟨?_, ?_⟩, ?_,
      ⟨_, rfl, State.convert_wires _ _ _⟩, State.convert_host _ _ _⟩
    · rw [State.convert_gridRead, if_pos rfl]
    · rw [State.convert_bufRead, if_pos rfl]
    · rw [State.convert_gridRead, if_neg ha]
    · rw [State.convert_bufRead, if_neg ha]
    · rw [State.convert_seq, State.convert_done, State.convert_trace]
      rcases s.seq.advance_cases with ⟨hl, hcol, e⟩ | ⟨hl, hcol, hrow, e⟩ | ⟨hl, hcol, hrow, e⟩ <;> rw [hl, e]
      · rw [if_pos hcol]
        exact ⟨rfl, rfl, rfl⟩
      · rw [if_neg hcol.not_gt, if_pos hrow]
        exact ⟨rfl, rfl, rfl⟩
      · rw [if_neg hcol.not_gt, if_neg hrow.not_gt]
        exact ⟨rfl, rfl, rfl⟩
  · rw [step_of_transfer hrst (State.transfer_of_joint hp hv hr hw), decodeBeat, State.accept, State.tick_host, hw]
    rfl
  · rw [step_of_no_transfer hrst (State.transfer_of_not_joint hp hj)]
    rfl

/-- Settles O19: LDPIX, STBIT and STEP are one access at the cursor each. -/
theorem accessesWaitInIdle : Obligations.AccessesWaitInIdle := by
  intro p b s hp
  have hwait := State.atCursor_of_idle hp
  exact ⟨hwait s (s.loadPixel · p), hwait s (s.storeBit · b), hwait s.noTransfer (s.convert · p)⟩

/-- Settles O22: `start_ready` is the phase, every DIM_BITS wide pair fits, and an empty one is told from its numbers. -/
theorem startAcceptsADescriptor : Obligations.StartAcceptsADescriptor := by
  refine ⟨State.startReady_iff, fun s w h hp => ?_⟩
  refine ⟨_, execStart_of_idle hp ⟨w.isLt, h.isLt⟩, ?_, State.startFrame_wires _ _ _, State.startFrame_host _ _ _⟩
  rw [State.startFrame_seq, State.startFrame_done, State.startFrame_trace]
  by_cases he : w = 0 ∨ h = 0
  · have he' := (toNat_empty_iff w h).2 he
    rw [if_pos he, if_pos he', if_pos he', decide_eq_true he']
    exact ⟨rfl, rfl, rfl⟩
  · have he' := mt (toNat_empty_iff w h).1 he
    rw [if_neg he, if_neg he', if_neg he', decide_eq_false he', Sequencer.launch_of_bitVec]
    exact ⟨rfl, rfl, rfl⟩

/-- Settles O55. -/
theorem startWaitsInRun : Obligations.StartWaitsInRun :=
  fun w h _ hp => execStart_of_run hp w h

/-- Settles O44: a RASTERIZE in RUN waits as its START does. -/
theorem rasterizeWaitsInRun : Obligations.RasterizeWaitsInRun := by
  intro g s hp
  show execRasterize g s = .next s.noTransfer
  rw [execRasterize, hp]

end Sys2Proof.Machine
end

section
/-! A whole frame: as many samples as it has pixels, from the START to the `DONE`, and the BitBuffer it leaves in the trace
(R52, R71 to R74). -/

namespace Sys2Proof.Machine

/-- A frame's samples, one for each pixel that remains, end with its last pixel; before it every one moves the index on by one.
What holds of the last sample and is handed on from each of the others holds of them all. -/
theorem fullFrame_induction {motive : State → List PixelSample → Prop}
    (last : ∀ (s : State) (p : PixelSample), s.seq.isLast = true → motive s [p])
    (next : ∀ (s : State) (p : PixelSample) (ps : List PixelSample), s.seq.isLast = false →
      s.seq.advance.index.toNat = s.seq.index.toNat + 1 → motive (s.convert s.seq.index.toNat p) ps → motive s (p :: ps))
    {s : State} {ps : List PixelSample} (hq : s.seq.Inv) (hp : s.seq.phase = .run) (hlen : ps.length = s.seq.remaining) :
    motive s ps := by
  induction ps generalizing s with
  | nil => exact absurd hlen (hq.remaining_pos hp).ne
  | cons p ps ih =>
    rw [List.length_cons] at hlen
    cases hl : s.seq.isLast with
    | true =>
      have hone := (hq.isLast_iff_remaining hp).1 hl
      obtain rfl : ps = [] := List.eq_nil_of_length_eq_zero (by omega)
      exact last s p hl
    | false =>
      have hmore : s.seq.remaining ≠ 1 := fun h => by simp [(hq.isLast_iff_remaining hp).2 h] at hl
      have hpos := hq.remaining_pos hp
      obtain ⟨-, hrun, hidx, hrem⟩ := hq.advance_remaining hp (by omega)
      refine next s p ps hl hidx (ih ?_ ?_ ?_) <;> rw [State.convert_seq]
      · exact hq.advance hp
      · exact hrun
      · omega

/-- A full frame emits the dots of its samples in order, then `DONE`, with which `done` pulses (R18, R70). -/
theorem State.convertAll_trace_of_full {ps : List PixelSample} {s : State} (hq : s.seq.Inv) (hp : s.seq.phase = .run)
    (hlen : ps.length = s.seq.remaining) :
    (s.convertAll ps).trace = s.trace ++ (dotsFrom s.seq.index.toNat ps ++ [.done]) ∧ (s.convertAll ps).done = true := by
  refine fullFrame_induction (motive := fun s ps =>
    (s.convertAll ps).trace = s.trace ++ (dotsFrom s.seq.index.toNat ps ++ [.done]) ∧ (s.convertAll ps).done = true)
    (fun s p hl => ?_) (fun s p ps hl hidx ih => ?_) hq hp hlen
  · simp [hl, dotsFrom]
  · obtain ⟨htrace, hdone⟩ := ih
    refine ⟨?_, hdone⟩
    rw [State.convertAll_cons, htrace, State.convert_index, hidx]
    simp [hl, dotsFrom]

/-- The memory lists these elements, from index 0 on, and nothing else. -/
def Memory.Lists {w : Nat} (m : Memory w) (vs : List (BitVec w)) : Prop :=
  ∀ i, Memory.read m i = vs[i]?

theorem Memory.Lists.nil {w : Nat} : Memory.Lists ([] : Memory w) [] := fun _ => rfl

/-- A write just past the last element. -/
theorem Memory.Lists.write {w : Nat} {m : Memory w} {vs : List (BitVec w)} (h : Memory.Lists m vs) (v : BitVec w) :
    Memory.Lists (Memory.write vs.length v m) (vs ++ [v]) := by
  intro i
  rw [Memory.read_write, h i]
  split
  next hi => rw [hi, List.getElem?_concat_length]
  next hi =>
    rcases Nat.lt_or_gt_of_ne hi with hlt | hgt
    · rw [List.getElem?_append_left hlt]
    · rw [List.getElem?_eq_none hgt.le, List.getElem?_eq_none (by simpa using hgt)]

/-- GRID holds these samples' words and BUF their bits, index by index, and nothing else (R32, R36). -/
def State.Stores (s : State) (ps : List PixelSample) : Prop :=
  Memory.Lists s.grid (ps.map PixelSample.word) ∧ Memory.Lists s.buf (ps.map pixelBit)

/-- A STEP at the first free index stores its sample behind the others. -/
theorem State.Stores.convert {s : State} {qs : List PixelSample} (hs : s.Stores qs) (p : PixelSample) :
    (s.convert qs.length p).Stores (qs ++ [p]) := by
  obtain ⟨hgrid, hbuf⟩ := hs
  have hgrid' := hgrid.write p.word
  have hbuf' := hbuf.write (pixelBit p)
  rw [List.length_map] at hgrid' hbuf'
  rw [State.Stores, State.convert_grid, State.convert_buf, List.map_append, List.map_append]
  exact ⟨hgrid', hbuf'⟩

/-- The rest of a frame is stored behind what was, when the cursor stands at the first free index. -/
theorem State.Stores.convertAll {ps qs : List PixelSample} {s : State} (hs : s.Stores qs) (hq : s.seq.Inv)
    (hp : s.seq.phase = .run) (hidx : s.seq.index.toNat = qs.length) (hlen : ps.length = s.seq.remaining) :
    (s.convertAll ps).Stores (qs ++ ps) := by
  refine fullFrame_induction (motive := fun s ps => ∀ qs, s.Stores qs → s.seq.index.toNat = qs.length →
    (s.convertAll ps).Stores (qs ++ ps)) (fun s p _ qs hs hidx => ?_) (fun s p ps _ hnext ih qs hs hidx => ?_)
    hq hp hlen qs hs hidx
  · rw [State.convertAll_cons, hidx]
    exact hs.convert p
  · rw [State.convertAll_cons, List.append_cons]
    refine ih _ ?_ ?_
    · rw [hidx]
      exact hs.convert p
    · rw [State.convert_index, hnext, hidx, List.length_append, List.length_singleton]

theorem State.convertAll_concat (s : State) (ps : List PixelSample) (p : PixelSample) :
    s.convertAll (ps ++ [p]) = (s.convertAll ps).convert (s.convertAll ps).seq.index.toNat p := by
  induction ps generalizing s with
  | nil => rfl
  | cons p' ps ih => exact ih _

/-- PIXEL drives every wire: what the record held before is not in it (R65). -/
theorem Wires.pixel_congr (p : PixelSample) (a b : Wires) : a.pixel p = b.pixel p := rfl

/-- The wires carry what the last sample drove. -/
theorem State.convertAll_wires (s : State) {ps : List PixelSample} {p : PixelSample} (h : ps.getLast? = some p) :
    (s.convertAll ps).wires = s.wires.pixel p := by
  obtain ⟨qs, rfl⟩ := List.getLast?_eq_some_iff.1 h
  rw [State.convertAll_concat, State.convert_wires, Wires.pixel_congr]

/-! ### The BitBuffer of a frame -/

/-- The dots of a frame under way and its `DONE` give the BitBuffer of their bits (R21). -/
theorem buffersFrom_dotsFrom (b : BitBuffer) (i : Nat) (ps : List PixelSample) (es : List Event) :
    buffersFrom (some b) (dotsFrom i ps ++ .done :: es) =
      ⟨b.width, b.height, b.bits ++ ps.map pixelBit⟩ :: buffersFrom none es := by
  induction ps generalizing b i with
  | nil => simp [dotsFrom]
  | cons p ps ih => simp [dotsFrom, ih]

/-- A frame that runs from START to DONE adds `rasterize` of its grid to the BitBuffers of the trace (R71). -/
theorem bitBuffers_append_frame (es : List Event) (g : PixelGrid) :
    bitBuffers (es ++ .start g.width g.height :: (dotsFrom 0 g.samples ++ [.done])) = bitBuffers es ++ [rasterize g] := by
  rw [bitBuffers, buffersFrom_append_start, buffersFrom_dotsFrom]
  rfl

theorem dotsFrom_length (i : Nat) (ps : List PixelSample) : (dotsFrom i ps).length = ps.length := by
  induction ps generalizing i with
  | nil => rfl
  | cons p ps ih => simp [dotsFrom, ih]

/-- The k-th dot from index `i` on is that of the k-th sample, with index `i + k`. -/
theorem dotsFrom_getElem? (i : Nat) (ps : List PixelSample) (k : Nat) :
    (dotsFrom i ps)[k]? = ps[k]?.map fun p => .dot (i + k) (pixelBit p) := by
  induction ps generalizing i k with
  | nil => rfl
  | cons p ps ih =>
    cases k with
    | zero => rfl
    | succ k => simp [dotsFrom, ih, Nat.add_right_comm, Nat.add_assoc]

/-! ### RASTERIZE of a well-formed grid -/

theorem PixelGrid.length_of_wellFormed {g : PixelGrid} (hg : (Instr.rasterize g).WellFormed) :
    g.samples.length = g.width * g.height := beq_iff_eq.1 hg

/-- A grid with a zero dimension has no sample (R25). -/
theorem PixelGrid.samples_of_empty {g : PixelGrid} (hg : (Instr.rasterize g).WellFormed) (he : g.width = 0 ∨ g.height = 0) :
    g.samples = [] :=
  List.eq_nil_of_length_eq_zero ((PixelGrid.length_of_wellFormed hg).trans (Nat.mul_eq_zero.2 he))

/-- An accepted descriptor finds nothing stored (R25, log 21). -/
theorem State.startFrame_stores (s : State) (w h : Nat) : (s.startFrame w h).Stores [] := by
  rw [State.Stores, State.startFrame_grid, State.startFrame_buf]
  exact ⟨.nil, .nil⟩

/-- What a RASTERIZE from IDLE leaves of `s` (`exec_rasterize_of_wellFormed`): its START, then the STEPs of its samples. -/
def State.rasterized (s : State) (g : PixelGrid) : State :=
  (s.startFrame g.width g.height).convertAll g.samples

section
variable {g : PixelGrid} {s : State} (hq : s.seq.Inv) (hp : s.seq.phase = .idle) (hg : (Instr.rasterize g).WellFormed)
  (hf : (Instr.rasterize g).Fits s.seq.dimBits)
include hp hg hf

/-- A well-formed grid has a STEP for each of its samples: none is left over (R52, R71). -/
theorem exec_rasterize_of_wellFormed : exec (.rasterize g) s = .next (s.rasterized g) := by
  have hexec : exec (.rasterize g) s = _ := execRasterize_of_idle hp hf
  rw [hexec, State.rasterized]
  by_cases he : g.width = 0 ∨ g.height = 0
  · rw [PixelGrid.samples_of_empty hg he]
    rfl
  · obtain ⟨hinv, hrun, -, hrem⟩ := State.startFrame_opens hf he
    have hall := runSamples_append hinv hrun ((PixelGrid.length_of_wellFormed hg).trans hrem.symm).le []
    rwa [List.append_nil] at hall

include hq

/-- An empty frame is done with its START (R73), any other with the STEP of its last pixel (R71). -/
theorem State.rasterized_spec :
    (s.rasterized g).trace = s.trace ++ .start g.width g.height :: (dotsFrom 0 g.samples ++ [.done]) ∧
      (s.rasterized g).seq = .idle s.seq.dimBits ∧ (s.rasterized g).done = true ∧ (s.rasterized g).Stores g.samples := by
  unfold State.rasterized
  by_cases he : g.width = 0 ∨ g.height = 0
  · rw [PixelGrid.samples_of_empty hg he, State.convertAll_nil]
    refine ⟨?_, ?_, ?_, State.startFrame_stores _ _ _⟩
    · rw [State.startFrame_trace, if_pos he]
      rfl
    · rw [State.startFrame_seq, if_pos he]
      exact hq.eq_idle hp
    · rw [State.startFrame_done, decide_eq_true he]
  · obtain ⟨hinv, hrun, hidx, hrem⟩ := State.startFrame_opens hf he
    have hlen := (PixelGrid.length_of_wellFormed hg).trans hrem.symm
    obtain ⟨htrace, hdone⟩ := State.convertAll_trace_of_full hinv hrun hlen
    refine ⟨?_, ?_, hdone, (State.startFrame_stores _ _ _).convertAll hinv hrun hidx hlen⟩
    · rw [htrace, hidx, State.startFrame_trace, if_neg he, List.append_assoc]
      rfl
    · rw [State.convertAll_seq_of_full hinv hrun hlen, State.startFrame_dimBits]

end

/-- What a consumer reads where these samples are stored (R24, R28). -/
theorem State.Stores.bufRead {s : State} {ps : List PixelSample} (hs : s.Stores ps) (i : Nat) :
    s.bufRead i = match ps[i]? with | some p => .ok (pixelBit p) | none => .error (.unwrittenDot i) := by
  obtain ⟨-, hbuf⟩ := hs
  rw [State.bufRead, hbuf i, List.getElem?_map]
  cases ps[i]? <;> rfl

/-- Settles O39: the frame's START and STEPs in one, `State.rasterized_spec`, with the BitBuffer read off its trace. -/
theorem rasterizeConvertsTheGrid : Obligations.RasterizeConvertsTheGrid := by
  intro g s hq hp hg hf
  obtain ⟨htrace, hseq, hdone, hstores⟩ := State.rasterized_spec hq hp hg hf
  refine ⟨_, exec_rasterize_of_wellFormed hp hg hf, htrace, hseq, hdone, ?_, fun i => ?_, hstores.bufRead, fun p hlast => ?_,
    fun hnone => ?_, ?_⟩
  · rw [htrace, bitBuffers_append_frame]
  · obtain ⟨hgrid, -⟩ := hstores
    rw [State.gridRead, hgrid i, List.getElem?_map]
  · refine ⟨_, rfl, ?_⟩
    rw [State.rasterized, State.convertAll_wires _ hlast, State.startFrame_wires, State.withWires_wires]
  · rw [State.rasterized, hnone, State.convertAll_nil, State.startFrame_wires]
  · rw [State.rasterized, State.convertAll_host, State.startFrame_host]

/-- Settles O40: the dots are `dotsFrom 0` of the samples and the BitBuffer is `rasterize` of the grid. -/
theorem rasterizePreservesDimensions : Obligations.RasterizePreservesDimensions := by
  intro g s hq hp hg hf
  have hlen := PixelGrid.length_of_wellFormed hg
  obtain ⟨t, hexec, htrace, -, -, hbuffers, -⟩ := rasterizeConvertsTheGrid g s hq hp hg hf
  refine ⟨t, rasterize g, dotsFrom 0 g.samples, hexec, htrace, ?_, fun i p hi => ?_, hbuffers, rfl, rfl, ?_, fun i p hi => ?_⟩
  · rw [dotsFrom_length, hlen]
  · rw [dotsFrom_getElem?, hi, Nat.zero_add]
    rfl
  · rw [rasterize, List.length_map, hlen]
  · rw [rasterize, List.getElem?_map, hi]
    rfl

/-- Settles O41: a grid with a zero dimension has no sample, so no dot stands between START and DONE. -/
theorem emptyGridIsAnEmptyBuffer : Obligations.EmptyGridIsAnEmptyBuffer := by
  intro g s hq hp hg hf he
  obtain ⟨t, hexec, htrace, hseq, -, hbuffers, -, -, -, -, hhost⟩ := rasterizeConvertsTheGrid g s hq hp hg hf
  rw [PixelGrid.samples_of_empty hg he] at htrace
  rw [rasterize, PixelGrid.samples_of_empty hg he] at hbuffers
  exact ⟨t, hexec, htrace, hbuffers, hseq.trans (hq.eq_idle hp).symm, hhost⟩

/-- Settles O42: the first frame ends in the IDLE state the second one starts from, and each adds `rasterize` of the grid. -/
theorem sameGridTwiceSameBuffer : Obligations.SameGridTwiceSameBuffer := by
  intro g s hq hp hg hf
  obtain ⟨t, ht, -, hseq, -, hbuf, -⟩ := rasterizeConvertsTheGrid g s hq hp hg hf
  have hidle : t.seq = s.seq := hseq.trans (hq.eq_idle hp).symm
  rw [← hidle] at hq hp hf
  obtain ⟨u, hu, -, -, -, hbuf', -⟩ := rasterizeConvertsTheGrid g t hq hp hg hf
  exact ⟨t, u, rasterize g, ht, hu, by rw [hbuf', hbuf, List.append_assoc]; rfl⟩

end Sys2Proof.Machine
end

section
/-! No exception, several instances, and a frame that is starved (R78, R81, R90). -/

namespace Sys2Proof.Machine

/-! ### Nothing faults -/

/-- The only refusal of START is of a descriptor the ports cannot carry (R97). -/
theorem execStart_answers {s : State} {w h : Nat} (hf : Descriptor.Fits s.seq.dimBits ⟨w, h⟩) : ∃ t, execStart w h s = .next t := by
  cases hp : s.seq.phase with
  | idle => exact ⟨_, execStart_of_idle hp hf⟩
  | run => exact ⟨_, execStart_of_run hp w h⟩

section
variable {s : State} (hq : s.seq.Inv)
include hq

/-- The access at the cursor never leaves a frame of R17, and waits outside one (R27, R28). -/
theorem State.atCursor_answers (waiting : State) (access : Nat → State) : ∃ t, s.atCursor waiting access = .next t := by
  cases hp : s.seq.phase with
  | idle => exact ⟨_, State.atCursor_of_idle hp waiting access⟩
  | run => exact ⟨_, State.atCursor_of_run hq hp waiting access⟩

/-- Whatever the number of samples, none is converted outside the frame: those past its end are returned (R41). -/
theorem runSamples_answers (ps : List PixelSample) : ∃ t, runSamples ps s = .next t := by
  induction ps generalizing s with
  | nil => exact ⟨s, rfl⟩
  | cons p ps ih =>
    cases hp : s.seq.phase with
    | idle => exact ⟨_, runSamples_of_idle hp (p :: ps)⟩
    | run =>
      rw [runSamples_cons_of_run hq hp]
      refine ih ?_
      rw [State.convert_seq]
      exact hq.advance hp

/-- A RASTERIZE answers because its START does and then its samples do. -/
theorem execRasterize_answers {g : PixelGrid} (hf : Descriptor.Fits s.seq.dimBits ⟨g.width, g.height⟩) :
    ∃ t, execRasterize g s = .next t := by
  cases hp : s.seq.phase with
  | idle =>
    rw [execRasterize_of_idle hp hf]
    exact runSamples_answers (execStart_seqInv hq (execStart_of_idle hp hf)) _
  | run => exact ⟨_, rasterizeWaitsInRun g s hp⟩

theorem exec_answers {i : Instr} (hf : i.Fits s.seq.dimBits) : ∃ t, exec i s = .next t := by
  cases i with
  | sum3 p | div3 p | luma p | thresh p | inv p | ashamt p | shmux p | ainv p | pixel p => exact ⟨_, rfl⟩
  | ldpix p => exact State.atCursor_answers hq s (s.loadPixel · p)
  | stbit dot => exact State.atCursor_answers hq s (s.storeBit · dot)
  | step p => exact State.atCursor_answers hq s.noTransfer (s.convert · p)
  | start w h => exact execStart_answers hf
  | rasterize g => exact execRasterize_answers hq hf

end

/-- What an edge takes from a host that keeps its duty can be given to the instance (R97). -/
theorem State.transfer_fits {s : State} {b : Beat} (hd : s.describable) (htr : s.transfer = some b) :
    (decodeBeat b).Fits s.seq.dimBits := by
  rcases s.transfer_cases with ⟨d, ds, -, -, hds, e⟩ | ⟨w, ws, -, -, -, -, e⟩ | ⟨-, -, e⟩ <;> cases htr.symm.trans e
  · exact hd d (hds ▸ List.mem_cons_self)
  · trivial

theorem step_of_reset {s : State} (hr : s.edge.rst = true) : step s = .next s.tick.applyReset := by
  rw [step, if_pos hr]

theorem step_answers {s : State} (hq : s.seq.Inv) (hd : s.describable) : ∃ t, step s = .next t := by
  cases hr : s.edge.rst with
  | true => exact ⟨_, step_of_reset hr⟩
  | false =>
    cases htr : s.transfer with
    | none => exact ⟨_, step_of_no_transfer hr htr⟩
    | some b =>
      have hseq : (s.tick.accept b).seq = s.seq := State.accept_seq _ _
      rw [step_of_transfer hr htr]
      apply exec_answers <;> rw [hseq]
      · exact hq
      · exact State.transfer_fits hd htr

/-- Settles O35: no access leaves the frame, and every descriptor taken fits. -/
theorem nothingFaults : Obligations.NothingFaults :=
  ⟨fun _ _ hq => exec_answers hq, fun _ => step_answers⟩

/-! ### Bands of rows -/

/-- Two bands of rows of one width are a grid of as many rows as they have together (R25). -/
theorem PixelGrid.wellFormed_of_bands {g upper lower : PixelGrid} (hu : (Instr.rasterize upper).WellFormed)
    (hl : (Instr.rasterize lower).WellFormed) (hwu : upper.width = g.width) (hwl : lower.width = g.width)
    (hh : g.height = upper.height + lower.height) (hs : g.samples = upper.samples ++ lower.samples) :
    (Instr.rasterize g).WellFormed := by
  refine (PixelGrid.wellFormed_iff g).2 ?_
  calc g.samples.length
      _ = upper.width * upper.height + lower.width * lower.height := by
        rw [hs, List.length_append, PixelGrid.length_of_wellFormed hu, PixelGrid.length_of_wellFormed hl]
      _ = g.width * g.height := by rw [hwu, hwl, hh, Nat.mul_add]

/-- The bits of two bands of rows are those of the whole grid, as no bit depends on any sample but its own (R36). -/
theorem rasterize_bits_of_bands {g upper lower : PixelGrid} (hs : g.samples = upper.samples ++ lower.samples) :
    (rasterize g).bits = (rasterize upper).bits ++ (rasterize lower).bits := by
  simp [rasterize, hs]

/-- Settles O43: each of the three frames adds `rasterize` of its grid to the BitBuffers of its instance. -/
theorem bandsOfRowsConcatenate : Obligations.BandsOfRowsConcatenate := by
  intro g upper lower s s' hq hp hq' hp' hu hl hwu hwl hh hs ⟨hfw, hfh⟩ hfl
  have hg := PixelGrid.wellFormed_of_bands hu hl hwu hwl hh hs
  have hfu : (Instr.rasterize upper).Fits s.seq.dimBits :=
    ⟨hwu.trans_lt hfw, (hh ▸ Nat.le_add_right _ _ : upper.height ≤ g.height).trans_lt hfh⟩
  obtain ⟨t, ht, -, -, -, hbt, -⟩ := rasterizeConvertsTheGrid upper s hq hp hu hfu
  obtain ⟨t', ht', -, -, -, hbt', -⟩ := rasterizeConvertsTheGrid lower s' hq' hp' hl hfl
  obtain ⟨u, hu', -, -, -, hbu, -⟩ := rasterizeConvertsTheGrid g s hq hp hg ⟨hfw, hfh⟩
  exact ⟨t, t', u, _, _, _, ht, ht', hu', hbt, hbt', hbu, rasterize_bits_of_bands hs⟩

/-! ### A starved frame -/

/-- What holds of every edge the host lists, and of an edge at which it drives nothing, holds of the coming one (log 8). -/
theorem State.edge_of_forall {s : State} {P : Edge → Prop} (hlisted : ∀ e ∈ s.host.edges, P e)
    (hquiet : P ⟨false, false, false, false⟩) : P s.edge := by
  unfold State.edge
  cases hes : s.host.edges with
  | nil => exact hquiet
  | cons e es => exact hlisted e (hes ▸ List.mem_cons_self)

/-- One side of the joint transfer never comes: no word, no `pix_valid`, or no `dot_ready` (R81). -/
def State.Starved (s : State) : Prop :=
  s.host.pixels = [] ∨ (∀ e ∈ s.host.edges, e.pixValid = false) ∨ (∀ e ∈ s.host.edges, e.dotReady = false)

theorem State.Starved.not_joint {s : State} (hs : s.Starved) : (s.pixValid && s.dotReady) = false := by
  rw [State.pixValid, State.dotReady]
  rcases hs with hpix | hvalid | hready
  · simp [hpix]
  · simp [State.edge_of_forall (P := fun e => e.pixValid = false) hvalid rfl]
  · simp [State.edge_of_forall (P := fun e => e.dotReady = false) hready rfl]

/-- An edge without a transfer leaves the host with the same words and fewer edges. -/
theorem State.Starved.wait {s : State} (hs : s.Starved) : s.tick.noTransfer.Starved :=
  hs.imp id (Or.imp (fun h e he => h e (List.mem_of_mem_tail he)) fun h e he => h e (List.mem_of_mem_tail he))

theorem State.noReset.wait {s : State} (hr : s.noReset) : s.tick.noTransfer.noReset :=
  fun e he => hr e (List.mem_of_mem_tail he)

/-- A starved frame lets the edge go by (R70, R81). -/
theorem step_of_starved {s : State} (hp : s.seq.phase = .run) (hr : s.noReset) (hs : s.Starved) :
    step s = .next s.tick.noTransfer :=
  step_of_no_transfer (State.edge_of_forall (P := fun e => e.rst = false) hr rfl)
    (State.transfer_of_not_joint hp hs.not_joint)

/-- A frame that runs is not final (R75). -/
theorem State.final_of_run {s : State} (hp : s.seq.phase = .run) : s.final = false := by
  simp [State.final, hp]

/-- Settles O46, by induction on the number of steps: each is an edge without a transfer, after which the frame is as starved
as before. -/
theorem starvedFrameWaits : Obligations.StarvedFrameWaits := by
  intro s k hp hr hs
  induction k generalizing s with
  | zero => exact ⟨s, rfl, rfl, rfl, rfl, rfl, rfl, State.final_of_run hp⟩
  | succ k ih =>
    rw [run_succ_of_step k (step_of_starved hp hr hs)]
    exact ih s.tick.noTransfer hp hr.wait (State.Starved.wait hs)

end Sys2Proof.Machine
end

section
/-! Reset at an edge, a descriptor offered while busy, and the frame a fair host completes (R93, R94, R101, R107). -/

namespace Sys2Proof.Machine

/-! ### Reset -/

/-- Settles O30: the edge is `applyReset` (`step_of_reset`). -/
theorem resetWinsAtItsEdge : Obligations.ResetWinsAtItsEdge :=
  fun _ hr => ⟨_, step_of_reset hr, State.applyReset_seq _, State.applyReset_done _, State.applyReset_trace _⟩

/-- Settles O31: `applyReset` empties the spaces and keeps the host's side of the edge that `tick` has used up. -/
theorem resetClearsTheRecords : Obligations.ResetClearsTheRecords :=
  fun s hr => ⟨_, step_of_reset hr, fun _ => rfl, fun _ => State.bufRead_of_none rfl, State.applyReset_wires _,
    (State.applyReset_host _).trans s.tick_host⟩

/-! ### A descriptor offered while busy -/

/-- Settles O25: in RUN an edge is a STEP or transfers nothing, and neither takes a descriptor or emits a START. -/
theorem descriptorWaitsWhileBusy : Obligations.DescriptorWaitsWhileBusy := by
  refine ⟨fun s t hp hr h => ?_, fun s d ds hp hr hv hd => ?_⟩
  · rcases step_cases h with ⟨hrst, -⟩ | ⟨-, -, hidle, -⟩ | ⟨w, -, -, -, -, -, rfl⟩ | ⟨-, -, rfl⟩
    · cases hr.symm.trans hrst
    · cases hp.symm.trans hidle
    · refine ⟨?_, State.startReady_of_run hp, _, State.convert_trace _ _ _, fun w' h' => ?_⟩
      · rw [State.convert_host, State.accept_pix_host, State.tick_host]
      · split <;> simp
    · exact ⟨rfl, State.startReady_of_run hp, [], (List.append_nil _).symm, fun _ _ => List.not_mem_nil⟩
  · rw [step_of_transfer hr (State.transfer_of_startValid hp hv hd), State.accept, State.tick_host, hd]
    rfl

/-! ### A fair host -/

/-- A STEP neither reads nor changes the host's side. -/
theorem State.convert_withHost (s : State) (h : HostSide) (i : Nat) (p : PixelSample) :
    (s.convert i p).withHost h = (s.withHost h).convert i p := by
  rw [State.convert_eq, State.convert_eq]
  rfl

/-- A STEP overwrites the `done` that an edge without a transfer cleared before it (R18). -/
theorem State.convertAll_noTransfer (s : State) (p : PixelSample) (ps : List PixelSample) :
    s.noTransfer.convertAll (p :: ps) = s.convertAll (p :: ps) := by
  rw [State.convertAll_cons, State.convertAll_cons, State.convert_eq, State.convert_eq]
  rfl

/-- A frame under way with the words `ws` to convert, held by a host that goes on with `rest`, and with enough joint edges for
them (R107). -/
structure State.Fair (s : State) (ws rest : List PixWord) : Prop where
  inv : s.seq.Inv
  running : s.seq.phase = .run
  noReset : s.noReset
  words : s.host.pixels = ws ++ rest
  full : ws.length = s.seq.remaining
  joint : s.seq.remaining ≤ (s.host.edges.filter Edge.joint).length

/-- The state after an edge at which the word `w` is converted at the cursor (`step_of_joint`). -/
def State.converted (s : State) (w : PixWord) : State :=
  (s.tick.accept (.pix w)).convert s.seq.index.toNat (PixelSample.ofWord w)

@[simp] theorem State.converted_seq (s : State) (w : PixWord) : (s.converted w).seq = s.seq.advance := by
  simp [State.converted]

@[simp] theorem State.converted_pixels (s : State) (w : PixWord) : (s.converted w).host.pixels = s.host.pixels.tail := by
  simp [State.converted]

@[simp] theorem State.converted_edges (s : State) (w : PixWord) : (s.converted w).host.edges = s.host.edges.tail := by
  simp [State.converted]

/-- But for the host's side, which gave up a word and an edge, it is a STEP from `s`. -/
theorem State.converted_withHost (s : State) (w : PixWord) (h : HostSide) :
    (s.converted w).withHost h = (s.withHost h).convert s.seq.index.toNat (PixelSample.ofWord w) := by
  rw [State.converted, State.convert_withHost]
  rfl

section
variable {s : State} {rest : List PixWord} {e : Edge} {es : List Edge} (hes : s.host.edges = e :: es)
include hes

theorem State.edge_of_cons : s.edge = e := by
  rw [State.edge, hes, List.headD_cons]

/-- At a joint edge the oldest word is converted (R70, R107). -/
theorem step_of_joint {w : PixWord} {ws : List PixWord} (hs : s.Fair (w :: ws) rest) (hj : e.joint = true) :
    step s = .next (s.converted w) := by
  obtain ⟨hvalid, hready⟩ := Bool.and_eq_true_iff.1 (State.edge_of_cons hes ▸ hj)
  have hpix : s.pixValid = true := by simp [State.pixValid, hvalid, hs.words]
  have hrst : s.edge.rst = false := State.edge_of_forall (P := fun e => e.rst = false) hs.noReset rfl
  rw [step_of_transfer hrst (State.transfer_of_joint hs.running hpix hready hs.words)]
  exact State.atCursor_of_inside (s := s.tick.accept (.pix w)) hs.running (hs.inv.index_lt_size hs.running) _
    ((s.tick.accept (.pix w)).convert · (PixelSample.ofWord w))

/-- At any other edge the frame waits (R70). -/
theorem step_of_not_joint {ws : List PixWord} (hs : s.Fair ws rest) (hj : e.joint = false) :
    step s = .next s.tick.noTransfer := by
  have hrst : s.edge.rst = false := State.edge_of_forall (P := fun e => e.rst = false) hs.noReset rfl
  refine step_of_no_transfer hrst (State.transfer_of_not_joint hs.running ?_)
  rw [State.pixValid, State.dotReady, Bool.and_right_comm, ← Edge.joint, State.edge_of_cons hes, hj, Bool.false_and]

/-- A joint edge before the last pixel uses up one word and one of the joint edges. -/
theorem State.Fair.converted {w w' : PixWord} {ws : List PixWord} (hs : s.Fair (w :: w' :: ws) rest) (hj : e.joint = true) :
    (s.converted w).Fair (w' :: ws) rest := by
  have hfull := hs.full
  have hjoint := hs.joint
  rw [List.length_cons] at hfull
  rw [hes, List.filter_cons_of_pos hj, List.length_cons] at hjoint
  obtain ⟨-, hrun, -, hrem⟩ := hs.inv.advance_remaining hs.running (by simp [← hfull])
  constructor
  case noReset =>
    intro e' he'
    rw [State.converted_edges] at he'
    exact hs.noReset e' (List.mem_of_mem_tail he')
  case words =>
    rw [State.converted_pixels, hs.words]
    rfl
  case joint =>
    rw [State.converted_edges, State.converted_seq, hes, List.tail_cons]
    omega
  all_goals rw [State.converted_seq]
  · exact hs.inv.advance hs.running
  · exact hrun
  · omega

/-- Any other edge uses up none. -/
theorem State.Fair.wait {ws : List PixWord} (hs : s.Fair ws rest) (hj : e.joint = false) : s.tick.noTransfer.Fair ws rest := by
  have hjoint := hs.joint
  rw [hes, List.filter_cons_of_neg (Bool.eq_false_iff.1 hj)] at hjoint
  refine ⟨hs.inv, hs.running, hs.noReset.wait, hs.words, hs.full, ?_⟩
  rwa [State.noTransfer_host, State.tick_host, hes]

end

/-- A fair frame is converted word by word, by induction on the edges listed; an edge in between changes `done`, which the next
STEP overwrites, and the host's side alone (R107). -/
theorem State.Fair.run {s : State} {w : PixWord} {ws rest : List PixWord} (hs : s.Fair (w :: ws) rest) :
    ∃ (k : Nat) (h : HostSide), k ≤ s.host.edges.length ∧ h.pixels = rest ∧
      Host.Core.run Sys2Proof.core k s = .next ((s.withHost h).convertAll ((w :: ws).map PixelSample.ofWord)) := by
  induction hes : s.host.edges generalizing s w ws with
  | nil =>
    have hjoint := hs.joint
    rw [hes] at hjoint
    exact absurd hjoint (hs.inv.remaining_pos hs.running).not_ge
  | cons e es ih =>
    cases hj : e.joint with
    | false =>
      have htail : s.tick.noTransfer.host.edges = es := congrArg List.tail hes
      obtain ⟨k, h, hk, hrest, hrun⟩ := ih (hs.wait hes hj) htail
      refine ⟨k + 1, h, Nat.succ_le_succ hk, hrest, ?_⟩
      rw [run_succ_of_step k (step_of_not_joint hes hs hj), hrun]
      exact congrArg _ ((s.withHost h).convertAll_noTransfer _ _)
    | true =>
      have hstep := step_of_joint hes hs hj
      cases ws with
      | nil =>
        refine ⟨1, (s.converted w).host, Nat.succ_pos _, ?_, ?_⟩
        · rw [State.converted_pixels, hs.words]
          rfl
        · exact (run_succ_of_step 0 hstep).trans (congrArg _ (s.converted_withHost w _))
      | cons w' ws =>
        have htail : (s.converted w).host.edges = es := by rw [State.converted_edges, hes, List.tail_cons]
        obtain ⟨k, h, hk, hrest, hrun⟩ := ih (hs.converted hes hj) htail
        refine ⟨k + 1, h, Nat.succ_le_succ hk, hrest, ?_⟩
        rw [run_succ_of_step k hstep, hrun, State.converted_withHost]
        rfl

/-- Settles O47: the words up to the end of the frame, by `State.Fair.run`, and what converting them all leaves. -/
theorem fairHostCompletesTheFrame : Obligations.FairHostCompletesTheFrame := by
  intro s hq hp hr hwords hjoint
  have hlen := List.length_take_of_le hwords
  have hfair : s.Fair (s.host.pixels.take s.seq.remaining) (s.host.pixels.drop s.seq.remaining) :=
    ⟨hq, hp, hr, (List.take_append_drop _ _).symm, hlen, hjoint⟩
  obtain ⟨w, ws, hws⟩ := List.exists_cons_of_length_pos (hlen ▸ hq.remaining_pos hp)
  obtain ⟨k, h, hk, hrest, hrun⟩ := (hws ▸ hfair).run
  rw [← hws] at hrun
  rw [← List.length_map PixelSample.ofWord] at hlen
  obtain ⟨htrace, hdone⟩ := State.convertAll_trace_of_full (s := s.withHost h) hq hp hlen
  refine ⟨k, _, hk, hrun, State.convertAll_seq_of_full (s := s.withHost h) hq hp hlen, hdone, ?_, ?_⟩
  · rw [htrace, List.append_assoc]
    rfl
  · rw [State.convertAll_host, State.withHost_host, hrest]

end Sys2Proof.Machine
end
